-- ==== Sys2Proof/Word.lean ====
section
/-!
DEFINITION. The two widths every value of the CORE is made of: 32-bit words (00_scope.md R11) and bytes.
Their arithmetic (R14, R15) is in Machine/Operands.lean.
-/

namespace Sys2Proof

/-- A 32-bit unsigned word: a register word, a command word, a bus value. -/
abbrev Word := BitVec 32

/-- One byte of a buffer or of a byte string. -/
abbrev Byte := BitVec 8

/-- The name of one of the 16 slots of the working state `W`, a 4-bit operand field (30_encoding.md R74). -/
abbrev Slot := BitVec 4

end Sys2Proof
end

