-- ==== Sys2Proof/Syntax.lean ====
section
/-!
DEFINITION. The 18 commands of the CORE (30_encoding.md R75), one constructor per row of spec/opcode_table.json.
Every operand a command word carries is an argument; every other operand is a fixed register (R74).
-/

namespace Sys2Proof

/-- A command of the CORE. -/
inductive Instr where
  /-- 0x00 `NOP` (R118). -/
  | nop
  /-- 0x01 `QR A, B, C, D` (R83). -/
  | qr (a b c d : Slot)
  /-- 0x02 `COLROUND` (R84). -/
  | colround
  /-- 0x03 `DIAGROUND` (R85). -/
  | diaground
  /-- 0x04 `DOUBLEROUND` (R86). -/
  | doubleround
  /-- 0x05 `PERMUTE` (R87). -/
  | permute
  /-- 0x10 `LOADSTATE` (R93). -/
  | loadstate
  /-- 0x11 `ADDBACK` (R94). -/
  | addback
  /-- 0x12 `SERIALIZE` (R95). -/
  | serialize
  /-- 0x13 `BLOCK` (R96). -/
  | block
  /-- 0x14 `STREAM_XOR` (R97). -/
  | streamXor
  /-- 0x20 `POLY_INIT` (R103). -/
  | polyInit
  /-- 0x21 `POLY_ABSORB LEN` (R104). -/
  | polyAbsorb (len : BitVec 5)
  /-- 0x22 `POLY_FINAL` (R105). -/
  | polyFinal
  /-- 0x23 `POLY_MAC` (R106). -/
  | polyMac
  /-- 0x30 `AEAD_ENC` (R112). -/
  | aeadEnc
  /-- 0x31 `AEAD_DEC` (R113). -/
  | aeadDec
  /-- 0x3F `CLEAR` (R119). -/
  | clear
deriving DecidableEq, Repr

end Sys2Proof
end

