-- ==== Sys2Proof/WellFormed.lean ====
section
/-!
DEFINITION. Which commands have legal operands (30_encoding.md R74). The one operand that can be illegal is
`POLY_ABSORB`'s `LEN`; every 4-bit slot is legal and the four slots of `QR` need not be distinct.
A command that is not well-formed is refused at acceptance with code 3 (R77, R120).
-/

namespace Sys2Proof

/-- The operands of a command are legal: `1 <= LEN <= 16` for `POLY_ABSORB`, no condition otherwise. -/
def WellFormed : Instr → Bool
  | .polyAbsorb len => decide (1 ≤ len.toNat) && decide (len.toNat ≤ 16)
  | .nop => true
  | .qr _ _ _ _ => true
  | .colround => true
  | .diaground => true
  | .doubleround => true
  | .permute => true
  | .loadstate => true
  | .addback => true
  | .serialize => true
  | .block => true
  | .streamXor => true
  | .polyInit => true
  | .polyFinal => true
  | .polyMac => true
  | .aeadEnc => true
  | .aeadDec => true
  | .clear => true

end Sys2Proof
end

