-- ==== Sys2Proof/Decode.lean ====
section
/-!
DEFINITION. The command word (30_encoding.md R72 to R78): the decoder, total on every 32-bit word and refusing by
name, the encoder, and the opcode map as a table of match and mask. The range of `LEN` is no matter of decoding: it is
checked after it (R75, R77), by `WellFormed`.
-/

namespace Sys2Proof

/-- Why a word spells no command. Both reasons are the spec's own refusals at acceptance (R120), never a stop. -/
inductive Reject where
  /-- `cmd[7:0]` is no `OPC` of R75: error code 1. -/
  | illegalOpcode
  /-- A reserved bit of the command's format is 1: error code 2. -/
  | reservedBits
deriving DecidableEq, Repr

/-- `OPC = cmd[7:0]` (R72). -/
def opc (cmd : Word) : BitVec 8 := cmd.extractLsb' 0 8

/-- `A = cmd[11:8]` (R73). -/
def fieldA (cmd : Word) : Slot := cmd.extractLsb' 8 4

/-- `B = cmd[15:12]` (R73). -/
def fieldB (cmd : Word) : Slot := cmd.extractLsb' 12 4

/-- `C = cmd[19:16]` (R73). -/
def fieldC (cmd : Word) : Slot := cmd.extractLsb' 16 4

/-- `D = cmd[23:20]` (R73). -/
def fieldD (cmd : Word) : Slot := cmd.extractLsb' 20 4

/-- `LEN = cmd[12:8]` (R73). -/
def fieldLen (cmd : Word) : BitVec 5 := cmd.extractLsb' 8 5

/-- Format `N`: `cmd[31:8]` is reserved (R73). -/
def formatN (cmd : Word) (i : Instr) : Except Reject Instr :=
  if cmd.extractLsb' 8 24 = 0#24 then .ok i else .error .reservedBits

/-- Format `Q`: four slots, `cmd[31:24]` is reserved (R73). -/
def formatQ (cmd : Word) (mk : Slot → Slot → Slot → Slot → Instr) : Except Reject Instr :=
  if cmd.extractLsb' 24 8 = 0#8 then .ok (mk (fieldA cmd) (fieldB cmd) (fieldC cmd) (fieldD cmd))
  else .error .reservedBits

/-- Format `L`: a length, `cmd[31:13]` is reserved (R73). -/
def formatL (cmd : Word) (mk : BitVec 5 → Instr) : Except Reject Instr :=
  if cmd.extractLsb' 13 19 = 0#19 then .ok (mk (fieldLen cmd)) else .error .reservedBits

/-- The decoder (R72, R73, R75, R76): the opcode first, then the reserved bits of its format. -/
def decode (cmd : Word) : Except Reject Instr :=
  match (opc cmd).toNat with
  | 0x00 => formatN cmd .nop
  | 0x01 => formatQ cmd .qr
  | 0x02 => formatN cmd .colround
  | 0x03 => formatN cmd .diaground
  | 0x04 => formatN cmd .doubleround
  | 0x05 => formatN cmd .permute
  | 0x10 => formatN cmd .loadstate
  | 0x11 => formatN cmd .addback
  | 0x12 => formatN cmd .serialize
  | 0x13 => formatN cmd .block
  | 0x14 => formatN cmd .streamXor
  | 0x20 => formatN cmd .polyInit
  | 0x21 => formatL cmd .polyAbsorb
  | 0x22 => formatN cmd .polyFinal
  | 0x23 => formatN cmd .polyMac
  | 0x30 => formatN cmd .aeadEnc
  | 0x31 => formatN cmd .aeadDec
  | 0x3F => formatN cmd .clear
  | _ => .error .illegalOpcode

/-- The encoder, from the format table of R73 and the `enc` lines of R79, R83 and R104. -/
def encode : Instr → Word
  | .nop => 0x00
  | .qr a b c d =>
    0x01 ||| a.setWidth 32 <<< 8 ||| b.setWidth 32 <<< 12 ||| c.setWidth 32 <<< 16 ||| d.setWidth 32 <<< 20
  | .colround => 0x02
  | .diaground => 0x03
  | .doubleround => 0x04
  | .permute => 0x05
  | .loadstate => 0x10
  | .addback => 0x11
  | .serialize => 0x12
  | .block => 0x13
  | .streamXor => 0x14
  | .polyInit => 0x20
  | .polyAbsorb len => 0x21 ||| len.setWidth 32 <<< 8
  | .polyFinal => 0x22
  | .polyMac => 0x23
  | .aeadEnc => 0x30
  | .aeadDec => 0x31
  | .clear => 0x3F

/-- One row of the opcode map of R75: a word spells the row's command when `cmd & mask = pattern`. -/
structure OpcodeRow where
  /-- The row's `match` column. -/
  pattern : Word
  /-- The row's `mask` column. -/
  mask : Word
deriving DecidableEq, Repr

/-- The opcode map of R75, row by row. -/
def opcodeTable : List OpcodeRow :=
  [⟨0x00000000, 0xFFFFFFFF⟩, ⟨0x00000001, 0xFF0000FF⟩, ⟨0x00000002, 0xFFFFFFFF⟩, ⟨0x00000003, 0xFFFFFFFF⟩,
   ⟨0x00000004, 0xFFFFFFFF⟩, ⟨0x00000005, 0xFFFFFFFF⟩] ++
  [⟨0x00000010, 0xFFFFFFFF⟩, ⟨0x00000011, 0xFFFFFFFF⟩, ⟨0x00000012, 0xFFFFFFFF⟩, ⟨0x00000013, 0xFFFFFFFF⟩,
   ⟨0x00000014, 0xFFFFFFFF⟩] ++
  [⟨0x00000020, 0xFFFFFFFF⟩, ⟨0x00000021, 0xFFFFE0FF⟩, ⟨0x00000022, 0xFFFFFFFF⟩, ⟨0x00000023, 0xFFFFFFFF⟩] ++
  [⟨0x00000030, 0xFFFFFFFF⟩, ⟨0x00000031, 0xFFFFFFFF⟩, ⟨0x0000003F, 0xFFFFFFFF⟩]

/-- The row of the opcode map a command stands in (R75). -/
def rowOf : Instr → OpcodeRow
  | .nop => ⟨0x00000000, 0xFFFFFFFF⟩
  | .qr _ _ _ _ => ⟨0x00000001, 0xFF0000FF⟩
  | .colround => ⟨0x00000002, 0xFFFFFFFF⟩
  | .diaground => ⟨0x00000003, 0xFFFFFFFF⟩
  | .doubleround => ⟨0x00000004, 0xFFFFFFFF⟩
  | .permute => ⟨0x00000005, 0xFFFFFFFF⟩
  | .loadstate => ⟨0x00000010, 0xFFFFFFFF⟩
  | .addback => ⟨0x00000011, 0xFFFFFFFF⟩
  | .serialize => ⟨0x00000012, 0xFFFFFFFF⟩
  | .block => ⟨0x00000013, 0xFFFFFFFF⟩
  | .streamXor => ⟨0x00000014, 0xFFFFFFFF⟩
  | .polyInit => ⟨0x00000020, 0xFFFFFFFF⟩
  | .polyAbsorb _ => ⟨0x00000021, 0xFFFFE0FF⟩
  | .polyFinal => ⟨0x00000022, 0xFFFFFFFF⟩
  | .polyMac => ⟨0x00000023, 0xFFFFFFFF⟩
  | .aeadEnc => ⟨0x00000030, 0xFFFFFFFF⟩
  | .aeadDec => ⟨0x00000031, 0xFFFFFFFF⟩
  | .clear => ⟨0x0000003F, 0xFFFFFFFF⟩

/-- `cmd & mask = match` for the row (R75). -/
def OpcodeRow.spells (row : OpcodeRow) (cmd : Word) : Bool := cmd &&& row.mask == row.pattern

/-- The command word whose low `nbits` bits, numbered as spec/opcode_table.json numbers them, are those of `w`; the
bits above them are 0. A command is one 32-bit word (R72), so its numbering is the word's own. -/
def tableWord (nbits w : Nat) : Word := BitVec.ofNat 32 (w % 2 ^ nbits)

/-- The command this decoder reads from the word `tableWord nbits w`; none where it refuses. -/
def decodeTableWord (nbits w : Nat) : Option Instr :=
  match decode (tableWord nbits w) with
  | .ok i => some i
  | .error _ => none

end Sys2Proof
end

