-- ==== Sys2Proof/Config.lean ====
section
/-!
DEFINITION. What an implementation fixes: the parameters of 00_scope.md section 3.
`LATENCY` (R12) takes no value: every interleaving of the engine's step is a run of the model (State.turns).
-/

namespace Sys2Proof

/-- `BASE`, the platform's address of the register window (R9): a parameter no rule depends on, so nothing in the
model reads it but the two conversions between platform addresses and window offsets. Log entry 4. -/
opaque Config.base : Nat

/-- A buffer capacity in bytes: `4 <= cap <= 4096` and `cap mod 4 = 0` (R10). -/
abbrev Cap := { n : Nat // 4 ≤ n ∧ n ≤ 4096 ∧ n % 4 = 0 }

/-- The value both capacities take by default (R10). The machine holds its capacities in State, so every statement
about every state is about every choice of them. Log entry 3. -/
def Config.defaultCap : Cap := ⟨4096, by decide⟩

end Sys2Proof
end

