-- ==== Sys2Proof/Machine/State.lean ====
section
/-!
DEFINITION. The state of the machine: every register of the CORE's window, its hidden state and its buffers
(10_state.md), and the two other agents of R21 as plain data (the host's program and port, the order of turns).
No field is a function, and every field has a value at reset.
-/

namespace Sys2Proof.Machine

/-- The AEAD sequencer's state `SEQ` (10_state.md R30). `keyDerive` and `verify` are passed through inside one engine
step (43_aead.md R107) and never read by the host. The codes 6 and 7 of the field are never produced. -/
inductive Seq where
  | idle
  | keyDerive
  | verify
  | decrypt
  | rejected
  | encrypt
deriving DecidableEq, Repr

/-- The error codes of `STATUS.ERRCODE` (60_exceptions.md R120). The codes 6 to 15 are never produced. -/
inductive ErrCode where
  /-- 0 `NONE`: the command was started. -/
  | noError
  /-- 1 `ILLEGAL_OPCODE`. -/
  | illegalOpcode
  /-- 2 `RESERVED_BITS`. -/
  | reservedBits
  /-- 3 `BAD_OPERAND`. -/
  | badOperand
  /-- 4 `BAD_LENGTH`. -/
  | badLength
  /-- 5 `COUNTER_WRAP`. -/
  | counterWrap
deriving DecidableEq, Repr

/-- A named place of the register window (10_state.md section 2). An offset is turned into one of these in one place
(`regAt`), and every access of the host goes through `readReg` and `writeReg`. -/
inductive Reg where
  | id
  | status
  | cmd
  | key (i : Fin 8)
  | nonce (i : Fin 3)
  | counter
  | w (i : Fin 16)
  | init (i : Fin 16)
  | ks (i : Fin 16)
  | pkey (i : Fin 8)
  | polyR (i : Fin 4)
  | polyS (i : Fin 4)
  | acc (i : Fin 5)
  | chunk (i : Fin 4)
  | tag (i : Fin 4)
  | tagIn (i : Fin 4)
  | aadLen
  | dataLen
  | caps
  /-- A word of the AAD or DATA buffer, by its window offset (R48). -/
  | buffer (off : Nat)
  /-- A reserved offset or an unused buffer tail (R49). -/
  | reserved
deriving DecidableEq, Repr

/-- The bytes of the two buffers, by window offset: addresses strictly rising, no byte 00 listed (`Memory.wf`). An
unlisted byte reads 00. Log entry 2. -/
abbrev Memory := List Host.Cell

/-- A transaction on the host register port, `MemRead(off, n)` or `MemWrite(off, n, v)` (20_memory.md R53). For a width
other than 4 the value written plays no role: the transaction is a `BusError` (R56). -/
inductive BusOp where
  | read (off n : Nat)
  | write (off n : Nat) (v : Word)
deriving DecidableEq, Repr

/-- What a transaction answers the host (R53, R123). -/
inductive Response where
  /-- No transaction has been made yet. -/
  | idle
  /-- A write completed. -/
  | ok
  /-- A read completed with this value. -/
  | value (v : Word)
  /-- The bus error response of R56 and R123. -/
  | busError
deriving DecidableEq, Repr

/-- An operand `v` of a `wr` or `expect` line: a number or a host temporary (30_encoding.md R79). -/
inductive HostVal where
  | num (v : Word)
  | temp (t : Nat)
deriving DecidableEq, Repr

/-- A line of a host program (R79), temporaries and labels numbered. The pseudo-operations `cmd`, `poll` and `wrbytes`
are expanded in HostProgram.lean; `access` is any transaction, of any width and offset. -/
inductive HostLine where
  /-- One transaction as it stands (R53). -/
  | access (op : BusOp)
  /-- `wr off, v`. -/
  | wr (off : Nat) (v : HostVal)
  /-- `rd off -> t`. -/
  | rd (off : Nat) (t : Nat)
  /-- `expect off, v`. -/
  | expect (off : Nat) (v : HostVal)
  /-- `bnz t, mask, label`. -/
  | bnz (t : Nat) (mask : Word) (target : Nat)
  /-- `label:`. -/
  | label (l : Nat)
deriving DecidableEq, Repr

/-- A step of one of the three agents of R21. -/
inductive Turn where
  | host
  | engine
  /-- The reset event; the cells are the bytes the buffers are drawn with (70_reset_and_hazards.md R136). -/
  | reset (draw : List Host.Cell)
deriving DecidableEq, Repr

/-- Why the machine stops. -/
inductive Fault where
  /-- Raised by a host transaction at an offset of 0x3000 or more: the CORE does not decode it and what happens is the
  platform's business (20_memory.md R53). Safe: the machine stops where the platform goes on. Log entry 9. -/
  | outsideWindow (off : Nat)
deriving DecidableEq, Repr

/-- Why the machine has no meaning for an instruction. -/
inductive Refusal where
  /-- Raised by an arm of `exec` whose instruction has no meaning yet; no arm does. Safe. -/
  | notModelled (mnemonic : String)
deriving DecidableEq, Repr

/-- The machine: the CORE's registers and buffers, and the environment that drives it. -/
structure State where
  /-- `AAD_CAP`, a parameter no step changes (00_scope.md R10). -/
  aadCap : Cap
  /-- `DATA_CAP`, a parameter no step changes (R10). -/
  dataCap : Cap
  /-- `PENDING`, the command word accepted and not yet completed (R50); `STATUS.BUSY` is its presence. -/
  pending : Option Word
  /-- `STATUS.DONE` (R27). -/
  done : Bool
  /-- `STATUS.ERR` (R28). -/
  err : Bool
  /-- `STATUS.AUTH_FAIL` (R31). -/
  authFail : Bool
  /-- `STATUS.AUTH_OK` (R31). -/
  authOk : Bool
  /-- `STATUS.OVR` (R29). -/
  ovr : Bool
  /-- `STATUS.SEQ` (R30). -/
  seq : Seq
  /-- `STATUS.ERRCODE` (R28). -/
  errCode : ErrCode
  /-- `KEY[0..7]` (R33). -/
  key : Vector Word 8
  /-- `NONCE[0..2]` (R34). -/
  nonce : Vector Word 3
  /-- `COUNTER` (R35). -/
  counter : Word
  /-- `W[0..15]`, the working state (R36). -/
  w : Vector Word 16
  /-- `I[0..15]`, the initial state of the current block (R37). -/
  init : Vector Word 16
  /-- `KS[0..15]`, the keystream block (R38). -/
  ks : Vector Word 16
  /-- `PKEY[0..7]`, the one-time key (R39). -/
  pkey : Vector Word 8
  /-- `R[0..3]`, the clamped `r` (R40). -/
  polyR : Vector Word 4
  /-- `S[0..3]` (R41). -/
  polyS : Vector Word 4
  /-- `ACC`, an exact integer kept below `P` (R42). -/
  acc : Nat
  /-- `CHUNK[0..3]` (R43). -/
  chunk : Vector Word 4
  /-- `TAG[0..3]` (R45). -/
  tag : Vector Word 4
  /-- `TAGIN[0..3]` (R46). -/
  tagIn : Vector Word 4
  /-- `AAD_LEN` (R47). -/
  aadLen : Word
  /-- `DATA_LEN` (R47). -/
  dataLen : Word
  /-- The bytes of the AAD and DATA buffers (R48). -/
  mem : Memory
  /-- The answer of the host's latest transaction (R53). The model's own field: log entry 8. -/
  response : Response
  /-- The host program (R79). The model's own field: log entry 8. -/
  program : List HostLine
  /-- The number of the host program's next line. The model's own field: log entry 8. -/
  hostPc : Nat
  /-- The host temporaries (R79). The model's own field: log entry 8. -/
  temps : List (Nat × Word)
  /-- Some `expect` line has read another value than it states (R79). The model's own field: log entry 8. -/
  expectFailed : Bool
  /-- The agents' next turns, the first one first; when the list is empty the engine moves if it is busy, else the
  host. Any interleaving and any latency (R12, R65) is a value of this field. The model's own field: log entry 1. -/
  turns : List Turn
deriving DecidableEq, Repr

/-- The machine right after reset (R52, R135): every register 0, nothing pending, the default capacities, an idle
host. The buffers are unspecified after reset; this state has the all-zero draw (log entry 2). -/
def State.reset : State where
  aadCap := Config.defaultCap
  dataCap := Config.defaultCap
  pending := none
  done := false
  err := false
  authFail := false
  authOk := false
  ovr := false
  seq := .idle
  errCode := .noError
  key := #v[0, 0, 0, 0, 0, 0, 0, 0]
  nonce := #v[0, 0, 0]
  counter := 0
  w := #v[0, 0, 0, 0, 0, 0, 0, 0, 0, 0, 0, 0, 0, 0, 0, 0]
  init := #v[0, 0, 0, 0, 0, 0, 0, 0, 0, 0, 0, 0, 0, 0, 0, 0]
  ks := #v[0, 0, 0, 0, 0, 0, 0, 0, 0, 0, 0, 0, 0, 0, 0, 0]
  pkey := #v[0, 0, 0, 0, 0, 0, 0, 0]
  polyR := #v[0, 0, 0, 0]
  polyS := #v[0, 0, 0, 0]
  acc := 0
  chunk := #v[0, 0, 0, 0]
  tag := #v[0, 0, 0, 0]
  tagIn := #v[0, 0, 0, 0]
  aadLen := 0
  dataLen := 0
  mem := []
  response := .idle
  program := []
  hostPc := 0
  temps := []
  expectFailed := false
  turns := []

end Sys2Proof.Machine
end

