-- ==== Sys2Proof/Machine/Operands.lean ====
section
/-!
DEFINITION. Operand forms and the primitives every rule is written with: word arithmetic (00_scope.md R14), byte strings
and the one place byte order is decided (R15, 20_memory.md R54, R55), register files read as integers (R16), constants
(R19, R89), slots of the working state (30_encoding.md R74), and the register an offset names (10_state.md section 2).
-/

namespace Sys2Proof.Machine

/-- `add32` (R14): addition that wraps, with no overflow error. -/
def add32 (x y : Word) : Word := x + y

/-- `xor32` (R14). -/
def xor32 (x y : Word) : Word := x ^^^ y

/-- `rotl32` (R14), for a count `0 < n < 32`. -/
def rotl32 (x : Word) (n : Nat) : Word := (x <<< n) ||| (x >>> (32 - n))

/-- `le_int(B)`, the little-endian integer of a byte string (R15). -/
def leInt : List Byte → Nat
  | [] => 0
  | b :: bs => b.toNat + 256 * leInt bs

/-- `le_bytes_N(v)`: byte `k` is `(v >> 8k) mod 256` (R15). -/
def leBytes (n v : Nat) : List Byte := (List.range n).map fun k => BitVec.ofNat 8 (v >>> (8 * k))

/-- `le32(B, k)`, the word of the bytes `B[k..k+4)` (R15). -/
def le32 (bs : List Byte) (k : Nat) : Word := BitVec.ofNat 32 (leInt ((bs.drop k).take 4))

/-- `words_le(w_0, ...)`: four bytes a word, concatenated in order (R15). -/
def wordsLe (ws : List Word) : List Byte := ws.flatMap fun x => leBytes 4 x.toNat

/-- `zeros(n)` (R15). -/
def zeros (n : Nat) : List Byte := List.replicate n 0

/-- `int(R)` of a register file: word 0 least significant (R16). -/
def intOf : List Word → Nat
  | [] => 0
  | x :: xs => x.toNat + 2 ^ 32 * intOf xs

/-- Word `i` of an integer read as a register file: `(v >> 32i) mod 2^32` (R42, R101). -/
def wordOf (v i : Nat) : Word := BitVec.ofNat 32 (v >>> (32 * i))

/-- `P = 2^130 - 5` (R19). -/
def polyP : Nat := 2 ^ 130 - 5

/-- `CLAMP` (R19). -/
def clampMask : Nat := 0x0ffffffc0ffffffc0ffffffc0fffffff

/-- `pad16(n) = (16 - (n mod 16)) mod 16` (R19). -/
def pad16 (n : Nat) : Nat := (16 - n % 16) % 16

/-- `nblocks(n) = max(1, ceil(n / 64))` (R19). -/
def nblocks (n : Nat) : Nat := max 1 ((n + 63) / 64)

/-- `SIGMA[0..3]`, the four constant words (41_block_serializer.md R89). -/
def sigma : Vector Word 4 := #v[0x61707865, 0x3320646e, 0x79622d32, 0x6b206574]

/-- Slot `i` of the working state (R16, R74). -/
def getSlot (w : Vector Word 16) (i : Slot) : Word := w[i.toNat]'i.isLt

/-- `W[i] <- v` (R16). -/
def setSlot (w : Vector Word 16) (i : Slot) (v : Word) : Vector Word 16 := w.set i.toNat v i.isLt

/-- The window's size in bytes (20_memory.md R61). -/
abbrev windowSize : Nat := 0x3000

/-- The window offset of byte `AAD[0]` (R61). -/
abbrev aadBase : Nat := 0x1000

/-- The window offset of byte `DATA[0]` (R61). -/
abbrev dataBase : Nat := 0x2000

/-- The platform's address of a window offset (00_scope.md R9). -/
def addressOf (off : Nat) : Nat := Config.base + off

/-- The window offset of a platform address; none outside the window, which the CORE does not decode (R53). -/
def offsetOf (addr : Nat) : Option Nat :=
  if Config.base ≤ addr ∧ addr < Config.base + windowSize then some (addr - Config.base) else none

/-- Window offset `a` is that of an existing byte of `AAD` or `DATA`, for these capacities (10_state.md R48). -/
def inBuffer (aadCap dataCap a : Nat) : Bool :=
  (decide (aadBase ≤ a) && decide (a < aadBase + aadCap)) || (decide (dataBase ≤ a) && decide (a < dataBase + dataCap))

/-- The register that the word-aligned offset `off` names (10_state.md section 2), for these capacities. -/
def regAt (aadCap dataCap off : Nat) : Reg :=
  if off = 0x000 then .id
  else if off = 0x004 then .status
  else if off = 0x008 then .cmd
  else if h : 0x010 ≤ off ∧ off < 0x030 then .key ⟨(off - 0x010) / 4, by omega⟩
  else if h : 0x030 ≤ off ∧ off < 0x03C then .nonce ⟨(off - 0x030) / 4, by omega⟩
  else if off = 0x03C then .counter
  else if h : 0x040 ≤ off ∧ off < 0x080 then .w ⟨(off - 0x040) / 4, by omega⟩
  else if h : 0x080 ≤ off ∧ off < 0x0C0 then .init ⟨(off - 0x080) / 4, by omega⟩
  else if h : 0x0C0 ≤ off ∧ off < 0x100 then .ks ⟨(off - 0x0C0) / 4, by omega⟩
  else if h : 0x100 ≤ off ∧ off < 0x120 then .pkey ⟨(off - 0x100) / 4, by omega⟩
  else if h : 0x120 ≤ off ∧ off < 0x130 then .polyR ⟨(off - 0x120) / 4, by omega⟩
  else if h : 0x130 ≤ off ∧ off < 0x140 then .polyS ⟨(off - 0x130) / 4, by omega⟩
  else if h : 0x140 ≤ off ∧ off < 0x154 then .acc ⟨(off - 0x140) / 4, by omega⟩
  else if h : 0x160 ≤ off ∧ off < 0x170 then .chunk ⟨(off - 0x160) / 4, by omega⟩
  else if h : 0x170 ≤ off ∧ off < 0x180 then .tag ⟨(off - 0x170) / 4, by omega⟩
  else if h : 0x180 ≤ off ∧ off < 0x190 then .tagIn ⟨(off - 0x180) / 4, by omega⟩
  else if off = 0x190 then .aadLen
  else if off = 0x194 then .dataLen
  else if off = 0x198 then .caps
  else if inBuffer aadCap dataCap off then .buffer off
  else .reserved

end Sys2Proof.Machine
end

