-- ==== Sys2Proof/Machine/Flags.lean ====
section
/-!
DEFINITION. `STATUS` (10_state.md R25 to R31) and the checks a command passes at acceptance (30_encoding.md R77,
60_exceptions.md R120, R122). There are no other flags (R51).
-/

namespace Sys2Proof.Machine

/-- `STATUS.BUSY`: a command is pending (R26, R50). Log entry 5. -/
def State.busy (s : State) : Bool := s.pending.isSome

/-- The code of `SEQ` (R30). -/
def Seq.code : Seq → BitVec 3
  | .idle => 0
  | .keyDerive => 1
  | .verify => 2
  | .decrypt => 3
  | .rejected => 4
  | .encrypt => 5

/-- The code of `ERRCODE` (R120). -/
def ErrCode.code : ErrCode → BitVec 4
  | .noError => 0
  | .illegalOpcode => 1
  | .reservedBits => 2
  | .badOperand => 3
  | .badLength => 4
  | .counterWrap => 5

/-- A one-bit field at bit `k` of a word. -/
def flagAt (b : Bool) (k : Nat) : Word := (BitVec.ofBool b).setWidth 32 <<< k

/-- The word read at `STATUS`, field by field (R25). -/
def statusWord (s : State) : Word :=
  flagAt s.busy 0 ||| flagAt s.done 1 ||| flagAt s.err 2 ||| flagAt s.authFail 3 ||| flagAt s.authOk 4 |||
    flagAt s.ovr 5 ||| s.seq.code.setWidth 32 <<< 8 ||| s.errCode.code.setWidth 32 <<< 16

/-- The error code of a word the decoder refuses (R77, R120). -/
def rejectCode : Reject → ErrCode
  | .illegalOpcode => .illegalOpcode
  | .reservedBits => .reservedBits

/-- `AAD_LEN <= AAD_CAP`. -/
def aadFits (s : State) : Bool := decide (s.aadLen.toNat ≤ s.aadCap.val)

/-- `DATA_LEN <= DATA_CAP`. -/
def dataFits (s : State) : Bool := decide (s.dataLen.toNat ≤ s.dataCap.val)

/-- The lengths a command reads fit their buffers: the check of code 4 (R77). -/
def lengthsFit (i : Instr) (s : State) : Bool :=
  match i with
  | .streamXor => dataFits s
  | .polyMac => dataFits s
  | .aeadEnc => aadFits s && dataFits s
  | .aeadDec => aadFits s && dataFits s
  | .nop => true
  | .qr _ _ _ _ => true
  | .colround => true
  | .diaground => true
  | .doubleround => true
  | .permute => true
  | .loadstate => true
  | .addback => true
  | .serialize => true
  | .block => true
  | .polyInit => true
  | .polyAbsorb _ => true
  | .polyFinal => true
  | .clear => true

/-- The keystream needs no counter above `2^32 - 1`: the check of code 5, in exact integers (R77). -/
def counterFits (i : Instr) (s : State) : Bool :=
  match i with
  | .streamXor => decide (s.counter.toNat + nblocks s.dataLen.toNat - 1 ≤ 2 ^ 32 - 1)
  | .nop => true
  | .qr _ _ _ _ => true
  | .colround => true
  | .diaground => true
  | .doubleround => true
  | .permute => true
  | .loadstate => true
  | .addback => true
  | .serialize => true
  | .block => true
  | .polyInit => true
  | .polyAbsorb _ => true
  | .polyFinal => true
  | .polyMac => true
  | .aeadEnc => true
  | .aeadDec => true
  | .clear => true

/-- The checks of a decoded command, codes 3, 4 and 5 in that order (R77, R122). -/
def checkInstr (i : Instr) (s : State) : ErrCode :=
  if WellFormed i = false then .badOperand
  else if lengthsFit i s = false then .badLength
  else if counterFits i s = false then .counterWrap
  else .noError

/-- `check(cmd)` of R77: the first check that fails gives the code; 0 when none does. -/
def check (cmd : Word) (s : State) : ErrCode :=
  match decode cmd with
  | .error e => rejectCode e
  | .ok i => checkInstr i s

end Sys2Proof.Machine
end

