-- ==== Sys2Proof/Machine/Ops.lean ====
section
/-!
DEFINITION. The named operations over memory and registers: the bytes of the buffers, the one register read and the one
register write, and what happens to a command: its acceptance, its refusal (the CORE's only exception, 60_exceptions.md
R121, R127), its completion (20_memory.md R64), and the reset event (70_reset_and_hazards.md R135).
-/

namespace Sys2Proof.Machine

/-! ### The bytes of the buffers -/

/-- The canonical form: addresses strictly rising and no byte 00 listed. -/
abbrev Memory.wf (m : Memory) : Prop := (m.map Prod.fst).Pairwise (· < ·) ∧ ∀ c ∈ m, c.2 ≠ 0

/-- The byte at window offset `a`; one that is not listed reads 00 (log entry 2). -/
def Memory.read : Memory → Nat → Byte
  | [], _ => 0
  | (k, b) :: m, a => if k = a then b else Memory.read m a

/-- The memory with byte `v` at window offset `a`, in canonical form. -/
def Memory.write : Memory → Nat → Byte → Memory
  | [], a, v => if v = 0 then [] else [(a, v)]
  | (k, b) :: m, a, v =>
    if a < k then (if v = 0 then (k, b) :: m else (a, v) :: (k, b) :: m)
    else if a = k then (if v = 0 then m else (a, v) :: m)
    else (k, b) :: Memory.write m a v

/-- The `n` bytes from window offset `a` on. -/
def Memory.readBytes (m : Memory) (a n : Nat) : List Byte := (List.range n).map fun k => Memory.read m (a + k)

/-- The byte string stored from window offset `a` on. -/
def Memory.writeBytes (m : Memory) (a : Nat) : List Byte → Memory
  | [] => m
  | b :: bs => Memory.writeBytes (Memory.write m a b) (a + 1) bs

/-- The byte string exclusive-ored into the bytes from window offset `a` on. -/
def Memory.xorBytes (m : Memory) (a : Nat) : List Byte → Memory
  | [] => m
  | b :: bs => Memory.xorBytes (Memory.write m a (Memory.read m a ^^^ b)) (a + 1) bs

/-- The word whose byte lane `k` is the byte at `off + k` (20_memory.md R54). -/
def Memory.readWord (m : Memory) (off : Nat) : Word := le32 (Memory.readBytes m off 4) 0

/-- Byte lane `k` of the word stored at `off + k` (R54). -/
def Memory.writeWord (m : Memory) (off : Nat) (v : Word) : Memory := Memory.writeBytes m off (leBytes 4 v.toNat)

/-- `AAD[0..AAD_LEN)` (R48). -/
def aadBytes (s : State) : List Byte := Memory.readBytes s.mem aadBase s.aadLen.toNat

/-- `DATA[0..DATA_LEN)` (R48). -/
def dataBytes (s : State) : List Byte := Memory.readBytes s.mem dataBase s.dataLen.toNat

/-! ### What happens to a command -/

/-- A command is refused with an error code: the whole effect of R121. `PENDING` stays absent. -/
def refuse (code : ErrCode) (s : State) : State :=
  { s with pending := none, done := false, authFail := false, authOk := false, err := true, errCode := code }

/-- A command that passes every check is started (R77). -/
def start (cmd : Word) (s : State) : State :=
  { s with pending := some cmd, done := false, authFail := false, authOk := false, err := false, errCode := .noError }

/-- Command acceptance (R77): the checks, then the refusal or the start. -/
def accept (cmd : Word) (s : State) : State :=
  match check cmd s with
  | .noError => start cmd s
  | .illegalOpcode => refuse .illegalOpcode s
  | .reservedBits => refuse .reservedBits s
  | .badOperand => refuse .badOperand s
  | .badLength => refuse .badLength s
  | .counterWrap => refuse .counterWrap s

/-- The end of every command: `BUSY <- 0`, `PENDING` removed, `DONE <- 1` (R64). -/
def complete (s : State) : State := { s with pending := none, done := true }

/-- The engine performs a command whose acceptance has checks of its own (codes 3, 4, 5). In every state a run reaches
the pending command has passed them (R63) and its rule is performed; in any other state the command gets the refusal
those checks call for, never a stop. Log entry 7. -/
def perform (i : Instr) (rule : State → State) (s : State) : Host.Outcome State Fault Refusal :=
  match checkInstr i s with
  | .noError => .next (complete (rule s))
  | .illegalOpcode => .next (refuse .illegalOpcode s)
  | .reservedBits => .next (refuse .reservedBits s)
  | .badOperand => .next (refuse .badOperand s)
  | .badLength => .next (refuse .badLength s)
  | .counterWrap => .next (refuse .counterWrap s)

/-! ### The registers of the window -/

/-- The value of `ID` (10_state.md R24). -/
def idWord : Word := 0xCC200001

/-- The value of `CAPS`: `AAD_CAP + 2^16 * DATA_CAP` (R44). -/
def capsWord (s : State) : Word := BitVec.ofNat 32 (s.aadCap.val + 2 ^ 16 * s.dataCap.val)

/-- The one read of a register, when nothing stands in its way (10_state.md section 2). -/
def readReg (s : State) : Reg → Word
  | .id => idWord
  | .status => statusWord s
  | .cmd => 0
  | .key i => s.key[i]
  | .nonce i => s.nonce[i]
  | .counter => s.counter
  | .w i => s.w[i]
  | .init i => s.init[i]
  | .ks i => s.ks[i]
  | .pkey i => s.pkey[i]
  | .polyR i => s.polyR[i]
  | .polyS i => s.polyS[i]
  | .acc i => wordOf s.acc i
  | .chunk i => s.chunk[i]
  | .tag i => s.tag[i]
  | .tagIn i => s.tagIn[i]
  | .aadLen => s.aadLen
  | .dataLen => s.dataLen
  | .caps => capsWord s
  | .buffer off => Memory.readWord s.mem off
  | .reserved => 0

/-- A write to `STATUS` changes only `OVR`, which a 1 in bit 5 clears (R25, R29). -/
def writeStatus (v : Word) (s : State) : State := if v.getLsbD 5 then { s with ovr := false } else s

/-- The one write of a register by the host while the engine is idle: RW registers and buffers store, `CMD` accepts a
command, `STATUS` clears `OVR`, RO and reserved places ignore the write (R32, R49, 20_memory.md R58). -/
def writeReg (s : State) (v : Word) : Reg → State
  | .id => s
  | .status => writeStatus v s
  | .cmd => accept v s
  | .key i => { s with key := s.key.set i v }
  | .nonce i => { s with nonce := s.nonce.set i v }
  | .counter => { s with counter := v }
  | .w i => { s with w := s.w.set i v }
  | .init i => { s with init := s.init.set i v }
  | .ks _ => s
  | .pkey i => { s with pkey := s.pkey.set i v }
  | .polyR _ => s
  | .polyS _ => s
  | .acc _ => s
  | .chunk i => { s with chunk := s.chunk.set i v }
  | .tag _ => s
  | .tagIn i => { s with tagIn := s.tagIn.set i v }
  | .aadLen => { s with aadLen := v }
  | .dataLen => { s with dataLen := v }
  | .caps => s
  | .buffer off => { s with mem := Memory.writeWord s.mem off v }
  | .reserved => s

/-! ### Reset -/

/-- The buffers after a reset that draws `cells`: the drawn bytes that lie in a buffer, every other byte 00
(70_reset_and_hazards.md R136). Every content of the buffers is drawn by some list of cells. -/
def drawnMemory (aadCap dataCap : Nat) (cells : List Host.Cell) : Memory :=
  cells.foldl (fun m c => if inBuffer aadCap dataCap c.1 then Memory.write m c.1 c.2 else m) []

/-- The reset event (R135, R136): every register of the CORE at its reset value, a pending command discarded, the buffers
drawn. The capacities are constants, and the host and the order of turns are no part of the CORE (log entry 13). -/
def resetEvent (draw : List Host.Cell) (s : State) : State :=
  { State.reset with
    aadCap := s.aadCap
    dataCap := s.dataCap
    mem := drawnMemory s.aadCap.val s.dataCap.val draw
    response := s.response
    program := s.program
    hostPc := s.hostPc
    temps := s.temps
    expectFailed := s.expectFailed
    turns := s.turns }

end Sys2Proof.Machine
end

