-- ==== Sys2Proof/Machine/Permutation.lean ====
section
/-!
DEFINITION. The quarter-round permutation engine (40_permutation.md): `QR`, `COLROUND`, `DIAGROUND`, `DOUBLEROUND`,
`PERMUTE`. Each reads and writes only `W`.
-/

namespace Sys2Proof.Machine

/-- One of the four steps of the quarter round, on three slots: `x += y`, `z ^= x`, `z = rotl(z, n)`, each assignment
reading what the one before it left (R81, R82). -/
def quarterStep (x y z : Slot) (n : Nat) (w : Vector Word 16) : Vector Word 16 :=
  let w := setSlot w x (add32 (getSlot w x) (getSlot w y))
  let w := setSlot w z (xor32 (getSlot w z) (getSlot w x))
  setSlot w z (rotl32 (getSlot w z) n)

/-- `QRF(a, b, c, d)`, for any four slots, distinct or not (R81, R82). -/
def quarterRound (a b c d : Slot) (w : Vector Word 16) : Vector Word 16 :=
  let w := quarterStep a b d 16 w
  let w := quarterStep c d b 12 w
  let w := quarterStep a b d 8 w
  quarterStep c d b 7 w

/-- The four column quarter rounds, in order (R84). -/
def columnRound (w : Vector Word 16) : Vector Word 16 :=
  let w := quarterRound 0 4 8 12 w
  let w := quarterRound 1 5 9 13 w
  let w := quarterRound 2 6 10 14 w
  quarterRound 3 7 11 15 w

/-- The four diagonal quarter rounds, in order (R85). -/
def diagonalRound (w : Vector Word 16) : Vector Word 16 :=
  let w := quarterRound 0 5 10 15 w
  let w := quarterRound 1 6 11 12 w
  let w := quarterRound 2 7 8 13 w
  quarterRound 3 4 9 14 w

/-- A column round, then a diagonal round (R86). -/
def doubleRound (w : Vector Word 16) : Vector Word 16 := diagonalRound (columnRound w)

/-- `n` double rounds. -/
def doubleRounds : Nat → Vector Word 16 → Vector Word 16
  | 0, w => w
  | n + 1, w => doubleRounds n (doubleRound w)

/-- The 20-round permutation: ten double rounds, 80 quarter rounds (R87, R88). -/
def permutation (w : Vector Word 16) : Vector Word 16 := doubleRounds 10 w

/-- `QR A, B, C, D` (R83). -/
def execQr (a b c d : Slot) (s : State) : Host.Outcome State Fault Refusal :=
  .next (complete { s with w := quarterRound a b c d s.w })

/-- `COLROUND` (R84). -/
def execColround (s : State) : Host.Outcome State Fault Refusal := .next (complete { s with w := columnRound s.w })

/-- `DIAGROUND` (R85). -/
def execDiaground (s : State) : Host.Outcome State Fault Refusal := .next (complete { s with w := diagonalRound s.w })

/-- `DOUBLEROUND` (R86). -/
def execDoubleround (s : State) : Host.Outcome State Fault Refusal := .next (complete { s with w := doubleRound s.w })

/-- `PERMUTE` (R87). -/
def execPermute (s : State) : Host.Outcome State Fault Refusal := .next (complete { s with w := permutation s.w })

end Sys2Proof.Machine
end

