-- ==== Sys2Proof/Machine/Block.lean ====
section
/-!
DEFINITION. Block state construction, serializer and stream XOR (41_block_serializer.md): `LOADSTATE`, `ADDBACK`,
`SERIALIZE`, `BLOCK`, `STREAM_XOR`.
-/

namespace Sys2Proof.Machine

/-- `INITIAL(ctr)`: the constants, the key, the counter, the nonce (R90). -/
def initialState (key : Vector Word 8) (nonce : Vector Word 3) (ctr : Word) : Vector Word 16 :=
  #v[sigma[0], sigma[1], sigma[2], sigma[3], key[0], key[1], key[2], key[3],
     key[4], key[5], key[6], key[7], ctr, nonce[0], nonce[1], nonce[2]]

/-- `W[i] <- add32(W[i], I[i])` for every `i` (R94). -/
def addWords (w i : Vector Word 16) : Vector Word 16 := Vector.zipWith add32 w i

/-- The 16 output words of the block for a counter (R91). -/
def blockWords (key : Vector Word 8) (nonce : Vector Word 3) (ctr : Word) : Vector Word 16 :=
  addWords (permutation (initialState key nonce ctr)) (initialState key nonce ctr)

/-- The rule of `LOADSTATE`, for a counter (R91, R93). -/
def loadState (ctr : Word) (s : State) : State :=
  { s with init := initialState s.key s.nonce ctr, w := initialState s.key s.nonce ctr }

/-- The rule of `PERMUTE` (R87). -/
def permuteState (s : State) : State := { s with w := permutation s.w }

/-- The rule of `ADDBACK` (R94). -/
def addBack (s : State) : State := { s with w := addWords s.w s.init }

/-- The rule of `SERIALIZE`: the 64-byte block is `words_le(KS[0], ..., KS[15])` (R95, 10_state.md R38). -/
def serializeState (s : State) : State := { s with ks := s.w }

/-- `DOBLOCK(ctr)` (R91): load, permute, add back, serialize. -/
def doBlock (ctr : Word) (s : State) : State := serializeState (addBack (permuteState (loadState ctr s)))

/-- The 64 bytes of the keystream block held in `KS` (R38, R91). -/
def blockBytes (s : State) : List Byte := wordsLe s.ks.toList

/-- Block `j` of a payload of `n` bytes with the keystream from counter `ctr`: `DOBLOCK(ctr + j)`, then
`DATA[i] <- DATA[i] xor B[i - 64j]` for `i` in `64j .. min(n, 64j + 64) - 1` (R97, R112). -/
def xorBlock (ctr : Word) (n : Nat) (s : State) (j : Nat) : State :=
  let s := doBlock (BitVec.ofNat 32 (ctr.toNat + j)) s
  { s with mem := Memory.xorBytes s.mem (dataBase + 64 * j) ((blockBytes s).take (n - 64 * j)) }

/-- `DATA[0..n)` exclusive-ored with `KSTREAM(ctr, n)`, blocks `0 .. nblocks(n) - 1` in order (R92, R97). -/
def streamFrom (ctr : Word) (n : Nat) (s : State) : State := (List.range (nblocks n)).foldl (xorBlock ctr n) s

/-- Byte `i` of `KSTREAM(ctr, n)`: byte `i mod 64` of the block for counter `ctr + (i div 64)` (R92). -/
def keystreamByte (key : Vector Word 8) (nonce : Vector Word 3) (ctr : Word) (i : Nat) : Byte :=
  (wordsLe (blockWords key nonce (BitVec.ofNat 32 (ctr.toNat + i / 64))).toList).getD (i % 64) 0

/-- `LOADSTATE` (R93). -/
def execLoadstate (s : State) : Host.Outcome State Fault Refusal := .next (complete (loadState s.counter s))

/-- `ADDBACK` (R94). -/
def execAddback (s : State) : Host.Outcome State Fault Refusal := .next (complete (addBack s))

/-- `SERIALIZE` (R95). -/
def execSerialize (s : State) : Host.Outcome State Fault Refusal := .next (complete (serializeState s))

/-- `BLOCK` (R96). -/
def execBlock (s : State) : Host.Outcome State Fault Refusal := .next (complete (doBlock s.counter s))

/-- `STREAM_XOR` (R97): codes 4 and 5 are its own checks. -/
def execStreamXor (s : State) : Host.Outcome State Fault Refusal :=
  perform .streamXor (fun s => streamFrom s.counter s.dataLen.toNat s) s

end Sys2Proof.Machine
end

