-- ==== Sys2Proof/Machine/Poly1305.lean ====
section
/-!
DEFINITION. The Poly1305 modular accumulator (42_poly1305.md): `POLY_INIT`, `POLY_ABSORB`, `POLY_FINAL`, `POLY_MAC`.
Every value is an exact integer (R102).
-/

namespace Sys2Proof.Machine

/-- The clamped `r`, word by word (R98, R103). -/
def clampWords (pkey : Vector Word 8) : Vector Word 4 :=
  #v[pkey[0] &&& 0x0fffffff, pkey[1] &&& 0x0ffffffc, pkey[2] &&& 0x0ffffffc, pkey[3] &&& 0x0ffffffc]

/-- `s`, unmodified (R98, R103). -/
def splitS (pkey : Vector Word 8) : Vector Word 4 := #v[pkey[4], pkey[5], pkey[6], pkey[7]]

/-- `ABSORB(m)` for the accumulator and `int(R)`: add the chunk with its 1-bit padding, multiply, reduce (R99). -/
def absorb (r acc : Nat) (m : List Byte) : Nat := (acc + (leInt m + 2 ^ (8 * m.length))) * r % polyP

/-- Chunk `q` of a message: `M[16q .. min(len(M), 16q + 16))` (R100). -/
def chunkOf (m : List Byte) (q : Nat) : List Byte := (m.drop (16 * q)).take 16

/-- `MACOVER(M)` for the accumulator and `int(R)`: `ceil(len(M) / 16)` chunks in order (R100). -/
def macOver (r acc : Nat) (m : List Byte) : Nat :=
  (List.range ((m.length + 15) / 16)).foldl (fun a q => absorb r a (chunkOf m q)) acc

/-- The four words of `(ACC + int(S)) mod 2^128` (R101). -/
def tagWords (acc : Nat) (polyS : Vector Word 4) : Vector Word 4 :=
  let t := acc + intOf polyS.toList
  #v[wordOf t 0, wordOf t 1, wordOf t 2, wordOf t 3]

/-- The rule of `POLY_INIT` (R103). -/
def polyInit (s : State) : State := { s with polyR := clampWords s.pkey, polyS := splitS s.pkey, acc := 0 }

/-- Absorption of one chunk into `ACC` (R99). -/
def absorbChunk (m : List Byte) (s : State) : State := { s with acc := absorb (intOf s.polyR.toList) s.acc m }

/-- Absorption of a message into `ACC`, chunk by chunk (R100). -/
def absorbMessage (m : List Byte) (s : State) : State := { s with acc := macOver (intOf s.polyR.toList) s.acc m }

/-- `FINALIZE` (R101): `ACC` is kept. -/
def finalize (s : State) : State := { s with tag := tagWords s.acc s.polyS }

/-- The first `LEN` bytes of `CHUNK` (R104). -/
def chunkBytes (len : BitVec 5) (s : State) : List Byte := (wordsLe s.chunk.toList).take len.toNat

/-- `POLY_INIT` (R103). -/
def execPolyInit (s : State) : Host.Outcome State Fault Refusal := .next (complete (polyInit s))

/-- `POLY_ABSORB LEN` (R104): code 3 is its own check. -/
def execPolyAbsorb (len : BitVec 5) (s : State) : Host.Outcome State Fault Refusal :=
  perform (.polyAbsorb len) (fun s => absorbChunk (chunkBytes len s) s) s

/-- `POLY_FINAL` (R105). -/
def execPolyFinal (s : State) : Host.Outcome State Fault Refusal := .next (complete (finalize s))

/-- `POLY_MAC` (R106): code 4 is its own check. -/
def execPolyMac (s : State) : Host.Outcome State Fault Refusal :=
  perform .polyMac (fun s => finalize (absorbMessage (dataBytes s) (polyInit s))) s

end Sys2Proof.Machine
end

