-- ==== Sys2Proof/Machine/Aead.lean ====
section
/-!
DEFINITION. The AEAD key-derivation and tag sequencer (43_aead.md): `AEAD_ENC`, `AEAD_DEC`. Each stage sets `SEQ` to
its name, so that one engine step passes through the states of R107 in order and ends in a terminal one.
-/

namespace Sys2Proof.Machine

/-- The one-time key of a key and nonce: the first eight words of the counter-0 block (R108). -/
def oneTimeKey (key : Vector Word 8) (nonce : Vector Word 3) : Vector Word 8 :=
  let b := blockWords key nonce 0
  #v[b[0], b[1], b[2], b[3], b[4], b[5], b[6], b[7]]

/-- Stage `KEYDERIVE` (R108): the counter-0 block, its first 32 bytes as the one-time key, `POLY_INIT`. -/
def keyDerive (s : State) : State :=
  let s := doBlock 0 { s with seq := .keyDerive }
  polyInit { s with pkey := #v[s.ks[0], s.ks[1], s.ks[2], s.ks[3], s.ks[4], s.ks[5], s.ks[6], s.ks[7]] }

/-- `MACDATA`, the authenticated-data buffer (R109). -/
def macData (s : State) : List Byte :=
  aadBytes s ++ zeros (pad16 s.aadLen.toNat) ++ dataBytes s ++ zeros (pad16 s.dataLen.toNat) ++
    leBytes 8 s.aadLen.toNat ++ leBytes 8 s.dataLen.toNat

/-- `TAGCOMPUTE` (R110). -/
def tagCompute (s : State) : State := finalize (absorbMessage (macData s) s)

/-- `diff` of R111: the or of all 16 exclusive-ors of byte pairs. -/
def tagDiff (t t' : List Byte) : Byte := (List.zipWith (· ^^^ ·) t t').foldl (· ||| ·) 0

/-- `CTCOMPARE(TAG, TAGIN)` (R111). -/
def tagsEqual (s : State) : Bool := tagDiff (wordsLe s.tag.toList) (wordsLe s.tagIn.toList) == 0

/-- The payload keystream from counter 1 exclusive-ored into `DATA[0..DATA_LEN)` (R112, R114). -/
def payload (s : State) : State := streamFrom 1 s.dataLen.toNat s

/-- Stage `ENCRYPT` (R112): the payload, then the tag over the ciphertext. -/
def encryptStage (s : State) : State := tagCompute (payload { s with seq := .encrypt })

/-- Stage `VERIFY` (R110, R113): the tag over the received ciphertext. -/
def verifyStage (s : State) : State := tagCompute { s with seq := .verify }

/-- Stage `DECRYPT`, entered only when the tags are equal (R114). -/
def decryptStage (s : State) : State := { payload { s with seq := .decrypt } with authOk := true }

/-- Stage `REJECTED`, entered when the tags differ (R115). -/
def rejectStage (s : State) : State :=
  { s with seq := .rejected, tag := #v[0, 0, 0, 0], acc := 0, authFail := true }

/-- The rule of `AEAD_ENC`: `KEYDERIVE -> ENCRYPT` (R107, R112). -/
def aeadEncrypt (s : State) : State := encryptStage (keyDerive s)

/-- The rule of `AEAD_DEC`: `KEYDERIVE -> VERIFY -> DECRYPT` or `REJECTED` (R107, R113). -/
def aeadDecrypt (s : State) : State :=
  let s := verifyStage (keyDerive s)
  if tagsEqual s then decryptStage s else rejectStage s

/-- `AEAD_ENC` (R112): code 4 is its own check. -/
def execAeadEnc (s : State) : Host.Outcome State Fault Refusal := perform .aeadEnc aeadEncrypt s

/-- `AEAD_DEC` (R113): code 4 is its own check. -/
def execAeadDec (s : State) : Host.Outcome State Fault Refusal := perform .aeadDec aeadDecrypt s

end Sys2Proof.Machine
end

