-- ==== Sys2Proof/Machine/System.lean ====
section
/-!
DEFINITION. The system commands (44_system.md): `NOP`, `CLEAR`.
-/

namespace Sys2Proof.Machine

/-- The rule of `CLEAR` (R119): every register and every buffer byte 0, every `STATUS` field 0. -/
def clearAll (s : State) : State :=
  { s with
    authFail := false
    authOk := false
    err := false
    ovr := false
    seq := .idle
    errCode := .noError
    key := #v[0, 0, 0, 0, 0, 0, 0, 0]
    nonce := #v[0, 0, 0]
    counter := 0
    w := #v[0, 0, 0, 0, 0, 0, 0, 0, 0, 0, 0, 0, 0, 0, 0, 0]
    init := #v[0, 0, 0, 0, 0, 0, 0, 0, 0, 0, 0, 0, 0, 0, 0, 0]
    ks := #v[0, 0, 0, 0, 0, 0, 0, 0, 0, 0, 0, 0, 0, 0, 0, 0]
    pkey := #v[0, 0, 0, 0, 0, 0, 0, 0]
    polyR := #v[0, 0, 0, 0]
    polyS := #v[0, 0, 0, 0]
    acc := 0
    chunk := #v[0, 0, 0, 0]
    tag := #v[0, 0, 0, 0]
    tagIn := #v[0, 0, 0, 0]
    aadLen := 0
    dataLen := 0
    mem := [] }

/-- `NOP` (R118): the engine step only completes. -/
def execNop (s : State) : Host.Outcome State Fault Refusal := .next (complete s)

/-- `CLEAR` (R119). -/
def execClear (s : State) : Host.Outcome State Fault Refusal := .next (complete (clearAll s))

end Sys2Proof.Machine
end

