-- ==== Sys2Proof/Machine/Dispatch.lean ====
section
/-!
DEFINITION. `exec`: the engine's step for a decoded command (20_memory.md R64), one arm per command, each one call of
its meaning.
-/

namespace Sys2Proof.Machine

def exec (i : Instr) (s : State) : Host.Outcome State Fault Refusal :=
  match i with
  | .nop => Sys2Proof.Machine.execNop s
  | .qr a b c d => Sys2Proof.Machine.execQr a b c d s
  | .colround => Sys2Proof.Machine.execColround s
  | .diaground => Sys2Proof.Machine.execDiaground s
  | .doubleround => Sys2Proof.Machine.execDoubleround s
  | .permute => Sys2Proof.Machine.execPermute s
  | .loadstate => Sys2Proof.Machine.execLoadstate s
  | .addback => Sys2Proof.Machine.execAddback s
  | .serialize => Sys2Proof.Machine.execSerialize s
  | .block => Sys2Proof.Machine.execBlock s
  | .streamXor => Sys2Proof.Machine.execStreamXor s
  | .polyInit => Sys2Proof.Machine.execPolyInit s
  | .polyAbsorb len => Sys2Proof.Machine.execPolyAbsorb len s
  | .polyFinal => Sys2Proof.Machine.execPolyFinal s
  | .polyMac => Sys2Proof.Machine.execPolyMac s
  | .aeadEnc => Sys2Proof.Machine.execAeadEnc s
  | .aeadDec => Sys2Proof.Machine.execAeadDec s
  | .clear => Sys2Proof.Machine.execClear s

end Sys2Proof.Machine
end

