-- ==== Sys2Proof/Machine/HostProgram.lean ====
section
/-!
DEFINITION. The host: its transactions on the register port (20_memory.md R53 to R60), its programs (30_encoding.md
R79) and the document's interface functions as host programs (R80). The host is an agent of the model (10_state.md R21),
no part of the CORE; a line of its program may be any transaction, so a program is any behaviour of a host.
-/

namespace Sys2Proof.Machine

/-! ### Transactions -/

/-- A transaction is admitted: 4 bytes at a multiple of 4 (R56). -/
def admitted (off n : Nat) : Bool := n == 4 && off % 4 == 0

/-- What an admitted read answers. While busy only `ID` and `STATUS` answer their value; every other read is 0 (R59). -/
def readWindow (s : State) (off : Nat) : Word :=
  if s.busy then (if off = 0x000 then idWord else if off = 0x004 then statusWord s else 0)
  else readReg s (regAt s.aadCap.val s.dataCap.val off)

/-- What an admitted write does. While busy it has exactly one effect, `OVR <- 1` (R60). -/
def writeWindow (s : State) (off : Nat) (v : Word) : State :=
  if s.busy then { s with ovr := true } else writeReg s v (regAt s.aadCap.val s.dataCap.val off)

/-- `MemRead(off, n)` in the window (R53, R56, R59). -/
def busRead (off n : Nat) (s : State) : State :=
  { s with response := if admitted off n then .value (readWindow s off) else .busError }

/-- `MemWrite(off, n, v)` in the window (R53, R56, R60). -/
def busWrite (off n : Nat) (v : Word) (s : State) : State :=
  if admitted off n then { writeWindow s off v with response := .ok } else { s with response := .busError }

/-- One transaction. An offset outside the window is not decoded by the CORE (R53): log entry 9. -/
def transact (op : BusOp) (s : State) : Host.Outcome State Fault Refusal :=
  match op with
  | .read off n => if off < windowSize then .next (busRead off n s) else .fault (.outsideWindow off)
  | .write off n v => if off < windowSize then .next (busWrite off n v s) else .fault (.outsideWindow off)

/-! ### Host programs -/

/-- The value of a host temporary; one that no `rd` has set is 0 (log entry 8). -/
def tempValue (temps : List (Nat × Word)) (t : Nat) : Word :=
  match temps.find? fun p => p.1 == t with
  | some p => p.2
  | none => 0

/-- The temporaries after `t <- v`. -/
def setTemp (temps : List (Nat × Word)) (t : Nat) (v : Word) : List (Nat × Word) :=
  (t, v) :: temps.filter fun p => p.1 != t

/-- The value of an operand of `wr` or `expect` (R79). -/
def hostValue (s : State) : HostVal → Word
  | .num v => v
  | .temp t => tempValue s.temps t

/-- The host goes on to its next line. -/
def nextLine (s : State) : State := { s with hostPc := s.hostPc + 1 }

/-- The line a label names. Where several lines hold it, it is the first of them, and a label no line holds is the
program's end; the spec is silent on both: DESIGN CHOICE, log entry 8. -/
def labelLine (program : List HostLine) (l : Nat) : Nat := program.findIdx fun line => line == .label l

/-- `t <- ` the value just read; a bus error leaves the temporary as it was (log entry 10). -/
def storeResponse (t : Nat) (s : State) : State :=
  match s.response with
  | .value v => { s with temps := setTemp s.temps t v }
  | .idle => s
  | .ok => s
  | .busError => s

/-- The program states that the value just read is `v` (R79). -/
def judgeResponse (v : Word) (s : State) : State :=
  { s with expectFailed := s.expectFailed || s.response != .value v }

/-- What follows a transaction that the window answers. -/
def afterTransact (op : BusOp) (k : State → State) (s : State) : Host.Outcome State Fault Refusal :=
  match transact op s with
  | .next s' => .next (k s')
  | .fault r => .fault r
  | .refused r => .refused r

/-- One line of a host program (R79). -/
def runLine (line : HostLine) (s : State) : Host.Outcome State Fault Refusal :=
  match line with
  | .access op => afterTransact op nextLine s
  | .wr off v => afterTransact (.write off 4 (hostValue s v)) nextLine s
  | .rd off t => afterTransact (.read off 4) (fun s => nextLine (storeResponse t s)) s
  | .expect off v => afterTransact (.read off 4) (fun t => nextLine (judgeResponse (hostValue s v) t)) s
  | .bnz t mask target =>
    .next (if tempValue s.temps t &&& mask = 0 then nextLine s
           else { s with hostPc := labelLine s.program target })
  | .label _ => .next (nextLine s)

/-- The host's next line, if its program has not ended. -/
def hostLine (s : State) : Option HostLine := s.program[s.hostPc]?

/-- The host's turn: its next line; a host whose program has ended does nothing more (70_reset_and_hazards.md R147). -/
def hostStep (s : State) : Host.Outcome State Fault Refusal :=
  match hostLine s with
  | some line => runLine line s
  | none => .next s

/-! ### The pseudo-operations of R79 -/

/-- `cmd MNEMONIC operands`. -/
def cmdLine (i : Instr) : HostLine := .wr 0x008 (.num (encode i))

/-- `cmd number`. -/
def cmdWordLine (cmd : Word) : HostLine := .wr 0x008 (.num cmd)

/-- `poll`: `L: rd 0x004 -> t`, then `bnz t, 1, L`. -/
def pollLines (t l : Nat) : List HostLine := [.label l, .rd 0x004 t, .bnz t 1 l]

/-- `wrbytes off, hexbytes`: the bytes padded with zeros to a multiple of 4, a word a line. -/
def wrbytesLines (off : Nat) (bs : List Byte) : List HostLine :=
  (List.range ((bs.length + 3) / 4)).map fun j => .wr (off + 4 * j) (.num (le32 (bs ++ zeros 3) (4 * j)))

/-! ### The document's functions as host programs (R80)

Each program writes its inputs, issues its commands, each followed by `poll`, and reads its result into temporaries 1, 2,
...; temporary 0 is the one `poll` reads `STATUS` into. The labels are `l`, `l + 1`, ..., so that programs joined into one
are given labels of their own (log entry 8). What a program's result is, read from the temporaries of a host that has
run it, follows each. -/

/-- `cmd i`, then `poll` (temporary 0, label `l`). -/
def runLines (i : Instr) (l : Nat) : List HostLine := cmdLine i :: pollLines 0 l

/-- The number of words that hold `n` bytes. -/
def wordCount (n : Nat) : Nat := (n + 3) / 4

/-- The `n` bytes from offset `off` on, read a word a line into the temporaries from `t` on. -/
def rdbytesLines (off t n : Nat) : List HostLine := (List.range (wordCount n)).map fun j => .rd (off + 4 * j) (t + j)

/-- The `n` bytes that `rdbytesLines` has read into the temporaries from `t` on. -/
def tempBytes (temps : List (Nat × Word)) (t n : Nat) : List Byte :=
  (wordsLe ((List.range (wordCount n)).map fun j => tempValue temps (t + j))).take n

/-- A length as the number a host line writes. -/
def lengthVal (bs : List Byte) : HostVal := .num (BitVec.ofNat 32 bs.length)

/-- `deriveKeystreamBlock(key, counter, nonce)`. -/
def keystreamBlockProgram (l : Nat) (key nonce : List Byte) (counter : Word) : List HostLine :=
  wrbytesLines 0x010 key ++ [.wr 0x03C (.num counter)] ++ wrbytesLines 0x030 nonce ++ runLines .block l ++
    rdbytesLines 0x0C0 1 64

/-- The result of `deriveKeystreamBlock`: `words_le(KS[0..15])`. -/
def keystreamBlockResult (temps : List (Nat × Word)) : List Byte := tempBytes temps 1 64

/-- `STREAM_XOR` over one piece of data with the keystream from `counter` on, its bytes read into the temporaries from
`t` on. -/
def streamPieceLines (l t : Nat) (counter : Word) (data : List Byte) : List HostLine :=
  [.wr 0x03C (.num counter)] ++ wrbytesLines 0x2000 data ++ [.wr 0x194 (lengthVal data)] ++ runLines .streamXor l ++
    rdbytesLines 0x2000 t data.length

/-- `streamXor` with the keystream of `(KEY, NONCE)` from a counter on, for data of at most `DATA_CAP` bytes. -/
def streamXorProgram (l : Nat) (key nonce : List Byte) (counter : Word) (data : List Byte) : List HostLine :=
  wrbytesLines 0x010 key ++ wrbytesLines 0x030 nonce ++ streamPieceLines l 1 counter data

/-- Piece `q` of data taken in pieces of `64 * blocks` bytes, with `COUNTER` advanced by `len/64` for every piece before
it. A counter above `2^32 - 1` is written modulo `2^32`: log entry 14. -/
def streamPiece (l : Nat) (counter : Word) (blocks : Nat) (data : List Byte) (q : Nat) : List HostLine :=
  streamPieceLines (l + q) (1 + 16 * blocks * q) (BitVec.ofNat 32 (counter.toNat + blocks * q))
    ((data.drop (64 * blocks * q)).take (64 * blocks))

/-- `streamXor` for data longer than `DATA_CAP`, in pieces of `64 * blocks` bytes and a last one of what remains. The
host chooses `blocks`, with `1 <= blocks` and `64 * blocks <= DATA_CAP`. -/
def streamXorPiecesProgram (l : Nat) (key nonce : List Byte) (counter : Word) (blocks : Nat) (data : List Byte) :
    List HostLine :=
  wrbytesLines 0x010 key ++ wrbytesLines 0x030 nonce ++
    (List.range ((data.length + (64 * blocks - 1)) / (64 * blocks))).flatMap (streamPiece l counter blocks data)

/-- The result of `streamXor` for `n` bytes of data, in one piece or in several: `DATA[0..DATA_LEN)` of each. -/
def streamXorResult (temps : List (Nat × Word)) (n : Nat) : List Byte := tempBytes temps 1 n

/-- `poly1305Tag(key32, message)` for a message of at most `DATA_CAP` bytes. -/
def poly1305Program (l : Nat) (key message : List Byte) : List HostLine :=
  wrbytesLines 0x100 key ++ wrbytesLines 0x2000 message ++ [.wr 0x194 (lengthVal message)] ++ runLines .polyMac l ++
    rdbytesLines 0x170 1 16

/-- The lines of `poly1305Tag` for chunk `q`: `CHUNK`, `cmd POLY_ABSORB len`, `poll`. -/
def chunkLines (l : Nat) (message : List Byte) (q : Nat) : List HostLine :=
  let chunk := (message.drop (16 * q)).take 16
  wrbytesLines 0x160 chunk ++ runLines (.polyAbsorb (BitVec.ofNat 5 chunk.length)) (l + q)

/-- `poly1305Tag(key32, message)` for a message of any length, chunk by chunk. -/
def poly1305ChunkProgram (l : Nat) (key message : List Byte) : List HostLine :=
  let chunks := (message.length + 15) / 16
  wrbytesLines 0x100 key ++ runLines .polyInit l ++ (List.range chunks).flatMap (chunkLines (l + 1) message) ++
    runLines .polyFinal (l + 1 + chunks) ++ rdbytesLines 0x170 1 16

/-- The result of `poly1305Tag`, by either program: `words_le(TAG[0..3])`. -/
def poly1305Result (temps : List (Nat × Word)) : List Byte := tempBytes temps 1 16

/-- The inputs that both AEAD functions write. -/
def aeadInputLines (key nonce aad data : List Byte) : List HostLine :=
  wrbytesLines 0x010 key ++ wrbytesLines 0x030 nonce ++ wrbytesLines 0x1000 aad ++ [.wr 0x190 (lengthVal aad)] ++
    wrbytesLines 0x2000 data ++ [.wr 0x194 (lengthVal data)]

/-- `aeadEncrypt(key32, nonce12, aad, plaintext)`. -/
def aeadEncryptProgram (l : Nat) (key nonce aad plaintext : List Byte) : List HostLine :=
  aeadInputLines key nonce aad plaintext ++ runLines .aeadEnc l ++ rdbytesLines 0x170 1 16 ++
    rdbytesLines 0x2000 5 plaintext.length

/-- The result of `aeadEncrypt` for `n` bytes: the ciphertext `DATA[0..DATA_LEN)` and the tag `words_le(TAG[0..3])`. -/
def aeadEncryptResult (temps : List (Nat × Word)) (n : Nat) : List Byte × List Byte :=
  (tempBytes temps 5 n, tempBytes temps 1 16)

/-- `aeadDecrypt(key32, nonce12, aad, ciphertext, tag16)`: `STATUS` is read, and `DATA` only if `AUTH_FAIL` is 0. -/
def aeadDecryptProgram (l : Nat) (key nonce aad ciphertext tag : List Byte) : List HostLine :=
  aeadInputLines key nonce aad ciphertext ++ wrbytesLines 0x180 tag ++ runLines .aeadDec l ++
    [.rd 0x004 1, .bnz 1 0x00000008 (l + 1)] ++ rdbytesLines 0x2000 2 ciphertext.length ++ [.label (l + 1)]

/-- What `aeadDecrypt` returns. -/
inductive DecryptResult where
  | plaintext (bs : List Byte)
  | authenticationFailure
deriving DecidableEq, Repr

/-- The result of `aeadDecrypt` for `n` bytes: the plaintext `DATA[0..DATA_LEN)` if `STATUS.AUTH_OK = 1`,
`AuthenticationFailure` if `STATUS.AUTH_FAIL = 1`; none if the command was refused. -/
def aeadDecryptResult (temps : List (Nat × Word)) (n : Nat) : Option DecryptResult :=
  if (tempValue temps 1).getLsbD 4 then some (.plaintext (tempBytes temps 2 n))
  else if (tempValue temps 1).getLsbD 3 then some .authenticationFailure
  else none

end Sys2Proof.Machine
end

