-- ==== Sys2Proof/Machine/Engine.lean ====
section
/-!
DEFINITION. The engine's turn, which of the three agents moves next, and how a command word is placed where the engine
takes its next command (20_memory.md R64, 10_state.md R21, R50).
-/

namespace Sys2Proof.Machine

/-- The engine's turn: it takes the command word in `PENDING` and performs its command (R64). It has no step when
nothing is pending. A pending word that spells no command, which acceptance never starts, gets its refusal (log
entry 7). -/
def engineStep (s : State) : Host.Outcome State Fault Refusal :=
  match s.pending with
  | none => .next s
  | some cmd =>
    match decode cmd with
    | .ok i => exec i s
    | .error e => .next (refuse (rejectCode e) s)

/-- Who moves next, and the state in which it moves: the first of `turns`, which is used up; with none left, the engine
if it is busy, else the host (log entry 1). -/
def nextTurn (s : State) : Turn × State :=
  match s.turns with
  | t :: ts => (t, { s with turns := ts })
  | [] => (if s.busy then .engine else .host, s)

/-- One agent's turn (R21). -/
def takeTurn (t : Turn) (s : State) : Host.Outcome State Fault Refusal :=
  match t with
  | .host => hostStep s
  | .engine => engineStep s
  | .reset draw => .next (resetEvent draw s)

/-- A command word placed in `PENDING`, with the engine's turn next. Log entry 6. -/
def placeCommand (cmd : Word) (s : State) : State := { s with pending := some cmd, turns := .engine :: s.turns }

end Sys2Proof.Machine
end

