-- ==== Sys2Proof/Safety.lean ====
section
/-!
DEFINITION. What the machine keeps in every run: the invariant the spec's prose states piece by piece, the end of a run,
and the terms the statements are written in.
-/

namespace Sys2Proof.Machine

/-- The buffers' bytes are in canonical form and lie where AAD and DATA exist (10_state.md R48). -/
def State.memOk (s : State) : Prop :=
  Memory.wf s.mem ∧ ∀ c ∈ s.mem, inBuffer s.aadCap.val s.dataCap.val c.1 = true

/-- The Poly1305 registers: `ACC < P` (R42) and `int(R) & ~CLAMP = 0` (R40). -/
def State.polyOk (s : State) : Prop := s.acc < polyP ∧ intOf s.polyR.toList &&& clampMask = intOf s.polyR.toList

/-- The status fields: `SEQ` never shows an internal stage (R30); `ERR` is 1 exactly when `ERRCODE` is not 0, and then
`DONE` is 0 (R27, R28); `AUTH_OK` and `AUTH_FAIL` tell the verdict of a completed `AEAD_DEC` and never both (R31), and
after a rejection `TAG` and `ACC` are 0 (43_aead.md R115). -/
def State.statusOk (s : State) : Prop :=
  s.seq ≠ .keyDerive ∧ s.seq ≠ .verify ∧
  (s.err = true ↔ s.errCode ≠ .noError) ∧
  (s.err = true → s.done = false) ∧
  (s.authOk = true → s.done = true ∧ s.authFail = false ∧ s.seq = .decrypt) ∧
  (s.authFail = true → s.done = true ∧ s.authOk = false ∧ s.seq = .rejected ∧ s.acc = 0 ∧ s.tag = #v[0, 0, 0, 0])

/-- A command in flight has passed every check, which still hold (20_memory.md R63, R69), and the flags are as its
acceptance left them (30_encoding.md R77). -/
def State.pendingOk (s : State) : Prop :=
  ∀ cmd, s.pending = some cmd →
    check cmd s = .noError ∧ s.done = false ∧ s.err = false ∧ s.authOk = false ∧ s.authFail = false

/-- The invariant of the machine. -/
def State.Inv (s : State) : Prop := s.memOk ∧ s.polyOk ∧ s.statusOk ∧ s.pendingOk

/-- The host's next line, if it makes a transaction, addresses the window (R53): what a host owes the machine so that it
never stops. -/
def hostInWindow (s : State) : Bool :=
  match hostLine s with
  | some (.access (.read off _)) => decide (off < windowSize)
  | some (.access (.write off _ _)) => decide (off < windowSize)
  | some (.wr off _) => decide (off < windowSize)
  | some (.rd off _) => decide (off < windowSize)
  | some (.expect off _) => decide (off < windowSize)
  | some (.bnz _ _ _) => true
  | some (.label _) => true
  | none => true

/-- The end of a run (70_reset_and_hazards.md R147): the host program has executed its last line, no command is pending
and no reset is to come. -/
def runEnded (s : State) : Bool :=
  (hostLine s).isNone && !s.busy && s.turns.all fun t => match t with
    | .host => true
    | .engine => true
    | .reset _ => false

/-- The write transaction of the host's next line, if it makes one: offset, width, value (30_encoding.md R79). -/
def hostWrite (s : State) : Option (Nat × Nat × Word) :=
  match hostLine s with
  | some (.access (.read _ _)) => none
  | some (.access (.write off n v)) => some (off, n, v)
  | some (.wr off v) => some (off, 4, hostValue s v)
  | some (.rd _ _) => none
  | some (.expect _ _) => none
  | some (.bnz _ _ _) => none
  | some (.label _) => none
  | none => none

/-- Commands performed one after another, each by the engine's step. -/
def execSeq : List Instr → State → Host.Outcome State Fault Refusal
  | [], s => .next s
  | i :: is, s =>
    match exec i s with
    | .next t => execSeq is t
    | .fault r => .fault r
    | .refused r => .refused r

/-- The eight quarter rounds of a double round, column then diagonal (40_permutation.md R84, R85). -/
def doubleRoundQrs : List Instr :=
  [.qr 0 4 8 12, .qr 1 5 9 13, .qr 2 6 10 14, .qr 3 7 11 15] ++
  [.qr 0 5 10 15, .qr 1 6 11 12, .qr 2 7 8 13, .qr 3 4 9 14]

/-- The quarter rounds of ten double rounds, in order (R88, 60_exceptions.md R133). -/
def tenDoubleRoundsQrs : List Instr := (List.replicate 10 doubleRoundQrs).flatten

/-- The quarter round of four words, in closed form: the document's steps 1 to 4 (R81). -/
def quarterWords (a b c d : Word) : Word × Word × Word × Word :=
  let a1 := a + b
  let d1 := (d ^^^ a1).rotateLeft 16
  let c1 := c + d1
  let b1 := (b ^^^ c1).rotateLeft 12
  let a2 := a1 + b1
  let d2 := (d1 ^^^ a2).rotateLeft 8
  let c2 := c1 + d2
  let b2 := (b1 ^^^ c2).rotateLeft 7
  (a2, b2, c2, d2)

/-- The accumulator that authenticated data leaves under the one-time key of a key and nonce (43_aead.md R108, R110). -/
def aeadAcc (key : Vector Word 8) (nonce : Vector Word 3) (data : List Byte) : Nat :=
  macOver (intOf (clampWords (oneTimeKey key nonce)).toList) 0 data

/-- The tag of authenticated data under the one-time key of a key and nonce (R108, R110). -/
def aeadTag (key : Vector Word 8) (nonce : Vector Word 3) (data : List Byte) : Vector Word 4 :=
  tagWords (aeadAcc key nonce data) (splitS (oneTimeKey key nonce))

/-- `CHUNK` holding a byte string of at most 16 bytes, zero beyond it, as a host writes it (30_encoding.md R80). -/
def chunkWords (bs : List Byte) : Vector Word 4 :=
  #v[le32 (bs ++ zeros 16) 0, le32 (bs ++ zeros 16) 4, le32 (bs ++ zeros 16) 8, le32 (bs ++ zeros 16) 12]

/-- Poly1305 chunk by chunk: for each chunk of a message, `CHUNK` is written and `POLY_ABSORB` performed (R80). -/
def absorbChunks : List (List Byte) → State → Host.Outcome State Fault Refusal
  | [], s => .next s
  | c :: cs, s =>
    match exec (.polyAbsorb (BitVec.ofNat 5 c.length)) { s with chunk := chunkWords c } with
    | .next t => absorbChunks cs t
    | .fault r => .fault r
    | .refused r => .refused r

/-- The chunks of a message, in order (42_poly1305.md R100). -/
def chunksOf (m : List Byte) : List (List Byte) := (List.range ((m.length + 15) / 16)).map (chunkOf m)

/-- Two states agree on every register and buffer byte a command reads: all of the CORE but the bytes at and beyond the
lengths (R48, R63). -/
def sameOperands (s t : State) : Prop :=
  s = { t with mem := s.mem } ∧
  (∀ k, k < s.aadLen.toNat → Memory.read s.mem (aadBase + k) = Memory.read t.mem (aadBase + k)) ∧
  (∀ k, k < s.dataLen.toNat → Memory.read s.mem (dataBase + k) = Memory.read t.mem (dataBase + k))

end Sys2Proof.Machine
end

