-- ==== Sys2Proof/Certificates/Slice0/Obligations.lean ====
section
/-!
DEFINITION. The statements about the machine that are to be proved, each formalising numbered rules of spec/.
-/

open Sys2Proof Sys2Proof.Machine

/-! ### Command words -/

/-- Words written out from the encodings of R73, R79, R83 and R104 decode to the commands they stand for. -/
def Obligations.SpelledWordsDecode : Prop :=
  decode 0x00000000 = .ok .nop ∧
  decode 0x00321001 = .ok (.qr 0 1 2 3) ∧
  decode 0x00d87201 = .ok (.qr 2 7 8 13) ∧
  decode 0x00cdef01 = .ok (.qr 15 14 13 12) ∧
  decode 0x00000005 = .ok .permute ∧
  decode 0x00000013 = .ok .block ∧
  decode 0x00001021 = .ok (.polyAbsorb 16) ∧
  decode 0x00000221 = .ok (.polyAbsorb 2) ∧
  decode 0x00000030 = .ok .aeadEnc ∧
  decode 0x00000031 = .ok .aeadDec ∧
  decode 0x0000003f = .ok .clear

/-- Decoding the word of any command, with every operand at every value, gives the command back. -/
def Obligations.DecodeOfEncodeGivesCommand : Prop :=
  ∀ i : Instr, decode (encode i) = .ok i

/-- A word that decodes is the word its command encodes to: no two words spell one command, and no bit is dropped. -/
def Obligations.EncodeOfDecodeGivesWord : Prop :=
  ∀ (w : Word) (i : Instr), decode w = .ok i → encode i = w

/-- R75: a word spells a command when `cmd & mask = match` for its row, and at most one row matches any word. The last
clause is what R75 marks as the spec's inference ("derived: the rows' `OPC` values are distinct and every mask covers
bits [7:0]"). -/
def Obligations.WordSpellsExactlyItsRow : Prop :=
  (∀ (w : Word) (i : Instr), decode w = .ok i → (rowOf i).spells w = true ∧ rowOf i ∈ opcodeTable) ∧
  (∀ (w : Word) (row : OpcodeRow), row ∈ opcodeTable → row.spells w = true → ∃ i, decode w = .ok i ∧ rowOf i = row) ∧
  (∀ (w : Word) (r r' : OpcodeRow), r ∈ opcodeTable → r' ∈ opcodeTable → r.spells w = true → r'.spells w = true →
    r = r')

/-- The opcodes R76 lists as illegal. -/
def illegalOpc (o : Nat) : Prop :=
  (0x06 ≤ o ∧ o ≤ 0x0F) ∨ (0x15 ≤ o ∧ o ≤ 0x1F) ∨ (0x24 ≤ o ∧ o ≤ 0x2F) ∨ (0x32 ≤ o ∧ o ≤ 0x3E) ∨ 0x40 ≤ o

/-- R76: a word of an illegal opcode written to `CMD` is refused with code 1, a word with a reserved bit set with code
2, and neither has any other effect. -/
def Obligations.IllegalWordsAreRefused : Prop :=
  ∀ (s : State) (cmd : Word), s.busy = false →
    (illegalOpc (cmd.toNat % 2 ^ 8) →
      transact (.write 0x008 4 cmd) s = .next { s with
        done := false, authFail := false, authOk := false, err := true, errCode := .illegalOpcode, response := .ok }) ∧
    (¬ illegalOpc (cmd.toNat % 2 ^ 8) →
      (cmd.toNat % 2 ^ 8 = 0x01 ∧ cmd.toNat / 2 ^ 24 ≠ 0) ∨ (cmd.toNat % 2 ^ 8 = 0x21 ∧ cmd.toNat / 2 ^ 13 ≠ 0) ∨
        (cmd.toNat % 2 ^ 8 ≠ 0x01 ∧ cmd.toNat % 2 ^ 8 ≠ 0x21 ∧ cmd.toNat / 2 ^ 8 ≠ 0) →
      transact (.write 0x008 4 cmd) s = .next { s with
        done := false, authFail := false, authOk := false, err := true, errCode := .reservedBits, response := .ok })

/-! ### Acceptance -/

/-- `check(cmd)` as R77 writes it, in exact integers, the codes as numbers. -/
def acceptanceCode (cmd : Word) (s : State) : Nat :=
  let op := cmd.toNat % 2 ^ 8
  if op ∉ [0x00, 0x01, 0x02, 0x03, 0x04, 0x05, 0x10, 0x11, 0x12, 0x13, 0x14, 0x20, 0x21, 0x22, 0x23, 0x30, 0x31, 0x3F]
  then 1
  else if op ≠ 0x01 ∧ op ≠ 0x21 ∧ cmd.toNat / 2 ^ 8 ≠ 0 then 2
  else if op = 0x01 ∧ cmd.toNat / 2 ^ 24 ≠ 0 then 2
  else if op = 0x21 ∧ cmd.toNat / 2 ^ 13 ≠ 0 then 2
  else if op = 0x21 ∧ ¬ (1 ≤ cmd.toNat / 2 ^ 8 % 2 ^ 5 ∧ cmd.toNat / 2 ^ 8 % 2 ^ 5 ≤ 16) then 3
  else if (op = 0x14 ∨ op = 0x23) ∧ s.dataLen.toNat > s.dataCap.val then 4
  else if (op = 0x30 ∨ op = 0x31) ∧ (s.aadLen.toNat > s.aadCap.val ∨ s.dataLen.toNat > s.dataCap.val) then 4
  else if op = 0x14 ∧ s.counter.toNat + max 1 ((s.dataLen.toNat + 63) / 64) - 1 > 2 ^ 32 - 1 then 5
  else 0

/-- R77: a write of `cmd` to `CMD` while idle clears `DONE`, `AUTH_FAIL` and `AUTH_OK`, and starts the command or
records the code of the first check that fails; nothing else changes. -/
def Obligations.AcceptanceChecksThenStarts : Prop :=
  ∀ (s : State) (cmd : Word), s.busy = false →
    (check cmd s).code.toNat = acceptanceCode cmd s ∧
    (acceptanceCode cmd s = 0 → transact (.write 0x008 4 cmd) s = .next { s with
      done := false, authFail := false, authOk := false, err := false, errCode := .noError, pending := some cmd,
      response := .ok }) ∧
    (acceptanceCode cmd s ≠ 0 → transact (.write 0x008 4 cmd) s = .next { s with
      done := false, authFail := false, authOk := false, err := true, errCode := check cmd s, response := .ok })

/-- R121: the effect of a refusal, in full, seen at every register and every byte; the engine takes no step, and the
next write to `CMD` is a fresh acceptance that remembers nothing of it. -/
def Obligations.RefusalChangesOnlyStatus : Prop :=
  ∀ (s : State) (cmd : Word), s.busy = false → check cmd s ≠ .noError →
    ∃ t, transact (.write 0x008 4 cmd) s = .next t ∧
      t.done = false ∧ t.authFail = false ∧ t.authOk = false ∧ t.err = true ∧ t.errCode = check cmd s ∧
      t.busy = false ∧ t.pending = none ∧ t.seq = s.seq ∧ t.ovr = s.ovr ∧
      (∀ r : Reg, r ≠ .status → readReg t r = readReg s r) ∧ (∀ a, Memory.read t.mem a = Memory.read s.mem a) ∧
      engineStep t = .next t ∧ ∀ next, transact (.write 0x008 4 next) t = transact (.write 0x008 4 next) s

/-- R122: one command reports one code, the first of the checks that fails, and a bus error comes before all of them. -/
def Obligations.FirstFailingCheckIsReported : Prop :=
  (∀ s : State, transact (.write 0x009 4 0x21) s = .next { s with response := .busError }) ∧
  (∀ (s : State) (cmd : Word), illegalOpc (cmd.toNat % 2 ^ 8) → check cmd s = .illegalOpcode) ∧
  (∀ s : State, check 0x00002021 s = .reservedBits) ∧
  (∀ s : State, s.aadLen.toNat > s.aadCap.val → s.dataLen.toNat > s.dataCap.val →
    check (encode .aeadEnc) s = .badLength) ∧
  (∀ s : State, s.dataLen.toNat > s.dataCap.val → s.counter.toNat + nblocks s.dataLen.toNat - 1 > 2 ^ 32 - 1 →
    check (encode .streamXor) s = .badLength)

/-! ### The register window -/

/-- R56: a transaction of a width other than 4 or at an offset that is no multiple of 4 is a bus error and changes no
state at all. -/
def Obligations.InadmissibleAccessIsBusError : Prop :=
  ∀ (s : State) (off n : Nat) (v : Word), off < 0x3000 → (n ≠ 4 ∨ off % 4 ≠ 0) →
    transact (.read off n) s = .next { s with response := .busError } ∧
    transact (.write off n v) s = .next { s with response := .busError }

/-- R59: while busy, `ID` and `STATUS` answer as ever and every other read answers 0. -/
def Obligations.BusyReadsShowIdAndStatus : Prop :=
  ∀ (s : State) (off : Nat), s.busy = true → off < 0x3000 → off % 4 = 0 →
    transact (.read off 4) s = .next { s with
      response := .value (if off = 0x000 then 0xCC200001 else if off = 0x004 then statusWord s else 0) }

/-- R60: while busy, an admitted write to any offset sets `OVR` and has no other effect. -/
def Obligations.BusyWritesOnlySetOverrun : Prop :=
  ∀ (s : State) (off : Nat) (v : Word), s.busy = true → off < 0x3000 → off % 4 = 0 →
    transact (.write off 4 v) s = .next { s with ovr := true, response := .ok }

/-- R25: the layout of `STATUS`, bit by bit, its read at all times, that a write changes only `OVR`, and its reset
value. -/
def Obligations.StatusWordLayout : Prop :=
  statusWord State.reset = 0x00000000 ∧ ∀ s : State,
    (statusWord s).getLsbD 0 = s.busy ∧ (statusWord s).getLsbD 1 = s.done ∧ (statusWord s).getLsbD 2 = s.err ∧
    (statusWord s).getLsbD 3 = s.authFail ∧ (statusWord s).getLsbD 4 = s.authOk ∧ (statusWord s).getLsbD 5 = s.ovr ∧
    (statusWord s).extractLsb' 6 2 = 0 ∧ (statusWord s).extractLsb' 8 3 = s.seq.code ∧
    (statusWord s).extractLsb' 11 5 = 0 ∧ (statusWord s).extractLsb' 16 4 = s.errCode.code ∧
    (statusWord s).extractLsb' 20 12 = 0 ∧
    transact (.read 0x004 4) s = .next { s with response := .value (statusWord s) } ∧
    ∀ v, s.busy = false →
      transact (.write 0x004 4 v) s = .next { s with ovr := s.ovr && !v.getLsbD 5, response := .ok }

/-- An RW place of the window (10_state.md section 2): a register the host reads and writes, or a word of a buffer. -/
def hostWritable (s : State) (off : Nat) : Prop :=
  (0x010 ≤ off ∧ off < 0x0C0) ∨ (0x100 ≤ off ∧ off < 0x120) ∨ (0x160 ≤ off ∧ off < 0x170) ∨
  (0x180 ≤ off ∧ off < 0x198) ∨ (0x1000 ≤ off ∧ off < 0x1000 + s.aadCap.val) ∨
  (0x2000 ≤ off ∧ off < 0x2000 + s.dataCap.val)

/-- Which register an offset names, in writes (10_state.md section 2): an idle write of a word to a read-write place sets
that one register, or that one word of a buffer, and nothing else; and R144: it holds its new value at the next
transaction. -/
def Obligations.StoredWordIsReadBack : Prop :=
  ∀ (s : State) (v : Word), s.busy = false →
    (∀ i : Fin 8, transact (.write (0x010 + 4 * i.val) 4 v) s = .next { s with key := s.key.set i v, response := .ok }) ∧
    (∀ i : Fin 3,
      transact (.write (0x030 + 4 * i.val) 4 v) s = .next { s with nonce := s.nonce.set i v, response := .ok }) ∧
    transact (.write 0x03C 4 v) s = .next { s with counter := v, response := .ok } ∧
    (∀ i : Fin 16, transact (.write (0x040 + 4 * i.val) 4 v) s = .next { s with w := s.w.set i v, response := .ok }) ∧
    (∀ i : Fin 16,
      transact (.write (0x080 + 4 * i.val) 4 v) s = .next { s with init := s.init.set i v, response := .ok }) ∧
    (∀ i : Fin 8,
      transact (.write (0x100 + 4 * i.val) 4 v) s = .next { s with pkey := s.pkey.set i v, response := .ok }) ∧
    (∀ i : Fin 4,
      transact (.write (0x160 + 4 * i.val) 4 v) s = .next { s with chunk := s.chunk.set i v, response := .ok }) ∧
    (∀ i : Fin 4,
      transact (.write (0x180 + 4 * i.val) 4 v) s = .next { s with tagIn := s.tagIn.set i v, response := .ok }) ∧
    transact (.write 0x190 4 v) s = .next { s with aadLen := v, response := .ok } ∧
    transact (.write 0x194 4 v) s = .next { s with dataLen := v, response := .ok } ∧
    (∀ off, off % 4 = 0 → (0x1000 ≤ off ∧ off < 0x1000 + s.aadCap.val) ∨ (0x2000 ≤ off ∧ off < 0x2000 + s.dataCap.val) →
      transact (.write off 4 v) s = .next { s with mem := Memory.writeWord s.mem off v, response := .ok }) ∧
    ∀ off, Memory.wf s.mem → off % 4 = 0 → hostWritable s off →
      ∃ t, transact (.write off 4 v) s = .next t ∧ transact (.read off 4) t = .next { t with response := .value v }

/-- A reserved place of the window (R49). -/
def reservedPlace (s : State) (off : Nat) : Prop :=
  off = 0x00C ∨ (0x154 ≤ off ∧ off ≤ 0x15C) ∨ (0x19C ≤ off ∧ off ≤ 0xFFC) ∨
  (0x1000 + s.aadCap.val ≤ off ∧ off ≤ 0x1FFC) ∨ (0x2000 + s.dataCap.val ≤ off ∧ off ≤ 0x2FFC)

/-- A read-only register of the window other than `STATUS` (R49). -/
def readOnlyPlace (off : Nat) : Prop :=
  off = 0x000 ∨ (0x0C0 ≤ off ∧ off < 0x100) ∨ (0x120 ≤ off ∧ off ≤ 0x150) ∨ (0x170 ≤ off ∧ off < 0x180) ∨ off = 0x198

/-- R49: reserved places read 0 and ignore writes, RO registers ignore writes, and a write to either while busy still
sets `OVR`; no such access is an error. -/
def Obligations.ReservedAndReadOnlyIgnoreWrites : Prop :=
  ∀ (s : State) (off : Nat) (v : Word), off % 4 = 0 →
    (reservedPlace s off → transact (.read off 4) s = .next { s with response := .value 0 }) ∧
    (reservedPlace s off ∨ readOnlyPlace off →
      transact (.write off 4 v) s = .next { s with ovr := s.ovr || s.busy, response := .ok })

/-- A word written to a buffer while idle stores byte lane `k` at offset `off + k` and no other byte; a word read from a
buffer has the byte at `off + k` in lane `k` (20_memory.md section 1, 10_state.md section 6). -/
def Obligations.BufferWordsAreLittleEndian : Prop :=
  ∀ (s : State) (off : Nat) (v : Word), s.busy = false → Memory.wf s.mem → off % 4 = 0 →
    (0x1000 ≤ off ∧ off < 0x1000 + s.aadCap.val) ∨ (0x2000 ≤ off ∧ off < 0x2000 + s.dataCap.val) →
    (∃ t, transact (.write off 4 v) s = .next t ∧ t = { s with mem := t.mem, response := .ok } ∧
      (∀ k, k < 4 → Memory.read t.mem (off + k) = v.extractLsb' (8 * k) 8) ∧
      ∀ a, (a < off ∨ off + 4 ≤ a) → Memory.read t.mem a = Memory.read s.mem a) ∧
    ∃ x, transact (.read off 4) s = .next { s with response := .value x } ∧
      ∀ k, k < 4 → x.extractLsb' (8 * k) 8 = Memory.read s.mem (off + k)

/-- No read has a side effect, and two reads of one offset with nothing between them answer the same (20_memory.md
section 1). -/
def Obligations.ReadsHaveNoSideEffect : Prop :=
  ∀ (s t : State) (off n : Nat), transact (.read off n) s = .next t →
    t = { s with response := t.response } ∧ transact (.read off n) t = .next t

/-- R24 and R44: `ID` reads its constant at all times and ignores writes; `CAPS` holds the two capacities, by default
0x10001000, and ignores writes; and no step changes a capacity. -/
def Obligations.IdAndCapacitiesAreConstant : Prop :=
  readReg State.reset .caps = 0x10001000 ∧
  (∀ s : State, transact (.read 0x000 4) s = .next { s with response := .value 0xCC200001 }) ∧
  (∀ (s : State) (v : Word), s.busy = false →
    transact (.write 0x000 4 v) s = .next { s with response := .ok } ∧
    transact (.write 0x198 4 v) s = .next { s with response := .ok } ∧
    ∃ x : Word, transact (.read 0x198 4) s = .next { s with response := .value x } ∧
      (x.extractLsb' 0 16).toNat = s.aadCap.val ∧ (x.extractLsb' 16 16).toNat = s.dataCap.val) ∧
  (∀ s t : State, step s = .next t → t.aadCap = s.aadCap ∧ t.dataCap = s.dataCap)

/-- Which register an offset names, in reads (10_state.md section 2, R32): an idle read answers that register's word and
changes nothing but the host's record of the answer. A reduced accumulator is read exactly through its five words, and
bits `[31:2]` of the last one are 0 (10_state.md section 5). -/
def Obligations.AccumulatorReadsExactly : Prop :=
  (∀ s : State, s.acc < 2 ^ 130 - 5 →
    intOf ((List.finRange 5).map fun i => readReg s (.acc i)) = s.acc ∧ (readReg s (.acc 4)).extractLsb' 2 30 = 0) ∧
  ∀ s : State, s.busy = false →
    transact (.read 0x008 4) s = .next { s with response := .value 0 } ∧
    (∀ i : Fin 8, transact (.read (0x010 + 4 * i.val) 4) s = .next { s with response := .value s.key[i] }) ∧
    (∀ i : Fin 3, transact (.read (0x030 + 4 * i.val) 4) s = .next { s with response := .value s.nonce[i] }) ∧
    transact (.read 0x03C 4) s = .next { s with response := .value s.counter } ∧
    (∀ i : Fin 16, transact (.read (0x040 + 4 * i.val) 4) s = .next { s with response := .value s.w[i] }) ∧
    (∀ i : Fin 16, transact (.read (0x080 + 4 * i.val) 4) s = .next { s with response := .value s.init[i] }) ∧
    (∀ i : Fin 16, transact (.read (0x0C0 + 4 * i.val) 4) s = .next { s with response := .value s.ks[i] }) ∧
    (∀ i : Fin 8, transact (.read (0x100 + 4 * i.val) 4) s = .next { s with response := .value s.pkey[i] }) ∧
    (∀ i : Fin 4, transact (.read (0x120 + 4 * i.val) 4) s = .next { s with response := .value s.polyR[i] }) ∧
    (∀ i : Fin 4, transact (.read (0x130 + 4 * i.val) 4) s = .next { s with response := .value s.polyS[i] }) ∧
    (∀ i : Fin 5, transact (.read (0x140 + 4 * i.val) 4) s =
      .next { s with response := .value (BitVec.ofNat 32 (s.acc / 2 ^ (32 * i.val))) }) ∧
    (∀ i : Fin 4, transact (.read (0x160 + 4 * i.val) 4) s = .next { s with response := .value s.chunk[i] }) ∧
    (∀ i : Fin 4, transact (.read (0x170 + 4 * i.val) 4) s = .next { s with response := .value s.tag[i] }) ∧
    (∀ i : Fin 4, transact (.read (0x180 + 4 * i.val) 4) s = .next { s with response := .value s.tagIn[i] }) ∧
    transact (.read 0x190 4) s = .next { s with response := .value s.aadLen } ∧
    transact (.read 0x194 4) s = .next { s with response := .value s.dataLen }

/-! ### Reset -/

/-- R135: the reset event, in any state, sets every register to its reset value and discards a pending command; the
engine has no step until the next accepted command. -/
def Obligations.ResetEventSetsEveryRegister : Prop :=
  ∀ (s : State) (draw : List Host.Cell), ∃ t, takeTurn (.reset draw) s = .next t ∧
    statusWord t = 0 ∧ t.pending = none ∧ t.seq = .idle ∧ t.errCode = .noError ∧
    (∀ i : Fin 8, t.key[i] = 0) ∧ (∀ i : Fin 3, t.nonce[i] = 0) ∧ t.counter = 0 ∧
    (∀ i : Fin 16, t.w[i] = 0) ∧ (∀ i : Fin 16, t.init[i] = 0) ∧ (∀ i : Fin 16, t.ks[i] = 0) ∧
    (∀ i : Fin 8, t.pkey[i] = 0) ∧ (∀ i : Fin 4, t.polyR[i] = 0) ∧ (∀ i : Fin 4, t.polyS[i] = 0) ∧ t.acc = 0 ∧
    (∀ i : Fin 4, t.chunk[i] = 0) ∧ (∀ i : Fin 4, t.tag[i] = 0) ∧ (∀ i : Fin 4, t.tagIn[i] = 0) ∧
    t.aadLen = 0 ∧ t.dataLen = 0 ∧ t.aadCap = s.aadCap ∧ t.dataCap = s.dataCap ∧ engineStep t = .next t

/-- Reset leaves every buffer byte unspecified: every content of both buffers is drawn by some reset event
(70_reset_and_hazards.md section 1). That a draw is the argument of the reset's turn is the model's: log entry 2. -/
def Obligations.EveryBufferContentIsDrawn : Prop :=
  ∀ (s : State) (f : Nat → Byte), ∃ draw t, takeTurn (.reset draw) s = .next t ∧
    (∀ k, k < s.aadCap.val → Memory.read t.mem (0x1000 + k) = f (0x1000 + k)) ∧
    (∀ k, k < s.dataCap.val → Memory.read t.mem (0x2000 + k) = f (0x2000 + k))

/-- What the host first observes after a reset (70_reset_and_hazards.md section 1, an inference the spec marks). -/
def Obligations.FirstReadsAfterReset : Prop :=
  ∀ (s t : State) (draw : List Host.Cell), takeTurn (.reset draw) s = .next t →
    t.busy = false ∧
    transact (.read 0x000 4) t = .next { t with response := .value 0xCC200001 } ∧
    transact (.read 0x004 4) t = .next { t with response := .value 0x00000000 } ∧
    transact (.read 0x198 4) t = .next { t with response := .value (capsWord s) }

/-- The state right after reset meets the machine's invariant. -/
def Obligations.ResetMeetsMachineInvariant : Prop := State.reset.Inv

/-! ### The step -/

/-- The engine's step performs exactly the command in `PENDING`: when its word decodes to `i` and the engine's turn is
next, one step of the machine is `exec i`, the turn used up (20_memory.md section 3). The order of turns is the model's:
log entry 1. -/
def Obligations.EngineStepPerformsPending : Prop :=
  ∀ (s : State) (cmd : Word) (i : Instr), s.pending = some cmd → decode cmd = .ok i →
    (∀ ts, s.turns = .engine :: ts → step s = exec i { s with turns := ts }) ∧ (s.turns = [] → step s = exec i s)

/-- What the lines of a host program do (30_encoding.md section 3): `wr` and `rd` are one transaction each, `expect` is
a read and a comparison, `bnz` and a label touch nothing of the CORE; an operand is a number or a temporary, and a
temporary holds what the last `rd` into it read. The host's fields are the model's: log entry 8. -/
def Obligations.HostLinesAreTransactions : Prop :=
  ∀ (s : State) (off t l : Nat) (v mask : Word), off < 0x3000 → off % 4 = 0 →
    runLine (.wr off (.num v)) s = .next (nextLine (busWrite off 4 v s)) ∧
    runLine (.wr off (.temp t)) s = .next (nextLine (busWrite off 4 (tempValue s.temps t) s)) ∧
    runLine (.rd off t) s = .next { s with
      response := .value (readWindow s off), temps := setTemp s.temps t (readWindow s off),
      hostPc := s.hostPc + 1 } ∧
    tempValue (setTemp s.temps t v) t = v ∧
    (∀ t', t' ≠ t → tempValue (setTemp s.temps t v) t' = tempValue s.temps t') ∧
    runLine (.expect off (.num v)) s = .next { s with
      response := .value (readWindow s off), expectFailed := s.expectFailed || decide (readWindow s off ≠ v),
      hostPc := s.hostPc + 1 } ∧
    runLine (.expect off (.temp t)) s = .next { s with
      response := .value (readWindow s off),
      expectFailed := s.expectFailed || decide (readWindow s off ≠ tempValue s.temps t), hostPc := s.hostPc + 1 } ∧
    runLine (.bnz t mask l) s = .next { s with
      hostPc := if tempValue s.temps t &&& mask = 0 then s.hostPc + 1 else labelLine s.program l } ∧
    runLine (.label l) s = .next { s with hostPc := s.hostPc + 1 }

/-- The invariant is kept by every step of every agent, from every state that meets it, whatever the order of turns
(log entry 1). -/
def Obligations.StepKeepsMachineInvariant : Prop :=
  ∀ s t : State, s.Inv → step s = .next t → t.Inv

/-- Nothing of the CORE ever stops the machine: a step is never refused, it faults only on a host transaction outside
the window (the model's stop: log entry 9), and it answers a next state whenever the host's next line keeps to the
window. -/
def Obligations.StepStopsOnlyOutsideWindow : Prop :=
  ∀ s : State, (hostInWindow s = true → ∃ t, step s = .next t) ∧ (∀ r, step s ≠ .refused r) ∧
    ∀ r, step s = .fault r → ∃ off, r = .outsideWindow off ∧ 0x3000 ≤ off

/-- R29: `OVR` is set by any host write while busy, and cleared only by a write of 1 to its bit while idle, by reset and
by the completion of `CLEAR`; whoever of the three agents moves. -/
def Obligations.OverrunIsSticky : Prop :=
  (∀ (s : State) (off : Nat) (v : Word), s.busy = true → off < 0x3000 → off % 4 = 0 →
    ∃ t, transact (.write off 4 v) s = .next t ∧ t.ovr = true) ∧
  (∀ (s : State) (v : Word), s.busy = false →
    transact (.write 0x004 4 v) s = .next { s with ovr := if v.getLsbD 5 then false else s.ovr, response := .ok }) ∧
  (∀ (s : State) (draw : List Host.Cell), ∃ t, takeTurn (.reset draw) s = .next t ∧ t.ovr = false) ∧
  (∀ s : State, ∃ t, exec .clear s = .next t ∧ t.ovr = false) ∧
  ∀ (turn : Turn) (s t : State), takeTurn turn s = .next t → s.ovr = true → t.ovr = false →
    (∃ draw, turn = .reset draw) ∨ (turn = .engine ∧ s.pending = some (encode .clear)) ∨
    (turn = .host ∧ s.busy = false ∧ ∃ v, hostWrite s = some (0x004, 4, v) ∧ v.getLsbD 5 = true)

/-- The engine's step on any command whose checks hold performs it, sets `BUSY` to 0, removes `PENDING` and sets `DONE`
to 1; every command completes. -/
def Obligations.EveryCommandCompletes : Prop :=
  ∀ (i : Instr) (s : State), WellFormed i = true → lengthsFit i s = true → counterFits i s = true →
    ∃ t, exec i s = .next t ∧ t.busy = false ∧ t.pending = none ∧ t.done = true

/-! ### The permutation engine and the system commands -/

/-- `NOP` writes no register and no byte: it only completes. -/
def Obligations.NopOnlyCompletes : Prop :=
  ∀ s : State, exec .nop s = .next { s with pending := none, done := true }

/-- R81 and R82: `QR a, b, c, d` on any four slots, distinct or not, is the twelve assignments in order, each reading
what the ones before it left, and changes nothing else. -/
def Obligations.QuarterRoundIsTwelveAssignments : Prop :=
  ∀ (a b c d : Slot) (s : State),
    let f0 : Slot → Word := getSlot s.w
    let f1 := Function.update f0 a (f0 a + f0 b)
    let f2 := Function.update f1 d (f1 d ^^^ f1 a)
    let f3 := Function.update f2 d ((f2 d).rotateLeft 16)
    let f4 := Function.update f3 c (f3 c + f3 d)
    let f5 := Function.update f4 b (f4 b ^^^ f4 c)
    let f6 := Function.update f5 b ((f5 b).rotateLeft 12)
    let f7 := Function.update f6 a (f6 a + f6 b)
    let f8 := Function.update f7 d (f7 d ^^^ f7 a)
    let f9 := Function.update f8 d ((f8 d).rotateLeft 8)
    let f10 := Function.update f9 c (f9 c + f9 d)
    let f11 := Function.update f10 b (f10 b ^^^ f10 c)
    let f12 := Function.update f11 b ((f11 b).rotateLeft 7)
    ∃ t, exec (.qr a b c d) s = .next t ∧ (∀ i, getSlot t.w i = f12 i) ∧
      t = { s with w := t.w, pending := none, done := true }

/-- `COLROUND` mixes each column apart from the others: each takes the quarter round of its own four words, and nothing
else changes (40_permutation.md section 2). -/
def Obligations.ColumnRoundMixesColumns : Prop :=
  ∀ s : State, ∃ t, exec .colround s = .next t ∧ t = { s with w := t.w, pending := none, done := true } ∧
    (t.w[0], t.w[4], t.w[8], t.w[12]) = quarterWords s.w[0] s.w[4] s.w[8] s.w[12] ∧
    (t.w[1], t.w[5], t.w[9], t.w[13]) = quarterWords s.w[1] s.w[5] s.w[9] s.w[13] ∧
    (t.w[2], t.w[6], t.w[10], t.w[14]) = quarterWords s.w[2] s.w[6] s.w[10] s.w[14] ∧
    (t.w[3], t.w[7], t.w[11], t.w[15]) = quarterWords s.w[3] s.w[7] s.w[11] s.w[15]

/-- `DIAGROUND` mixes each diagonal apart from the others, and nothing else changes. -/
def Obligations.DiagonalRoundMixesDiagonals : Prop :=
  ∀ s : State, ∃ t, exec .diaground s = .next t ∧ t = { s with w := t.w, pending := none, done := true } ∧
    (t.w[0], t.w[5], t.w[10], t.w[15]) = quarterWords s.w[0] s.w[5] s.w[10] s.w[15] ∧
    (t.w[1], t.w[6], t.w[11], t.w[12]) = quarterWords s.w[1] s.w[6] s.w[11] s.w[12] ∧
    (t.w[2], t.w[7], t.w[8], t.w[13]) = quarterWords s.w[2] s.w[7] s.w[8] s.w[13] ∧
    (t.w[3], t.w[4], t.w[9], t.w[14]) = quarterWords s.w[3] s.w[4] s.w[9] s.w[14]

/-- `DOUBLEROUND` is one `COLROUND` followed by one `DIAGROUND`. -/
def Obligations.DoubleRoundIsColumnThenDiagonal : Prop :=
  ∀ s : State, ∃ t, exec .doubleround s = .next t ∧ execSeq [.colround, .diaground] s = .next t

/-- R88: `PERMUTE` is ten double rounds, 80 quarter-round applications in all. The all-zero state is its fixed point: a
corner case of R87 that the spec marks as its inference ("derived: from rule R81"). -/
def Obligations.PermuteIsEightyQuarterRounds : Prop :=
  tenDoubleRoundsQrs.length = 80 ∧
  ∀ s : State, ∃ t, exec .permute s = .next t ∧ execSeq tenDoubleRoundsQrs s = .next t ∧
    execSeq (List.replicate 10 .doubleround) s = .next t ∧
    t = { s with w := t.w, pending := none, done := true } ∧
    ((∀ i : Fin 16, s.w[i] = 0) → ∀ i : Fin 16, t.w[i] = 0)

/-- `CLEAR` sets every register and every buffer byte to 0 and ends with `STATUS = 0x00000002`. -/
def Obligations.ClearErasesEverything : Prop :=
  ∀ s : State, ∃ t, exec .clear s = .next t ∧ statusWord t = 0x00000002 ∧
    (∀ i : Fin 8, t.key[i] = 0) ∧ (∀ i : Fin 3, t.nonce[i] = 0) ∧ t.counter = 0 ∧
    (∀ i : Fin 16, t.w[i] = 0) ∧ (∀ i : Fin 16, t.init[i] = 0) ∧ (∀ i : Fin 16, t.ks[i] = 0) ∧
    (∀ i : Fin 8, t.pkey[i] = 0) ∧ (∀ i : Fin 4, t.polyR[i] = 0) ∧ (∀ i : Fin 4, t.polyS[i] = 0) ∧ t.acc = 0 ∧
    (∀ i : Fin 4, t.chunk[i] = 0) ∧ (∀ i : Fin 4, t.tag[i] = 0) ∧ (∀ i : Fin 4, t.tagIn[i] = 0) ∧
    t.aadLen = 0 ∧ t.dataLen = 0 ∧ t.aadCap = s.aadCap ∧ t.dataCap = s.dataCap ∧ ∀ a, Memory.read t.mem a = 0

/-! ### Blocks and streams -/

/-- R90: the initial state is the four constants, the key, the counter and the nonce; `LOADSTATE` writes it to `I` and
`W` and changes nothing else. -/
def Obligations.LoadstateBuildsInitialState : Prop :=
  ∀ s : State, ∃ t, exec .loadstate s = .next t ∧
    t = { s with init := t.init, w := t.w, pending := none, done := true } ∧ t.w = t.init ∧
    t.init[0] = 0x61707865 ∧ t.init[1] = 0x3320646e ∧ t.init[2] = 0x79622d32 ∧ t.init[3] = 0x6b206574 ∧
    (∀ i : Fin 8, t.init[4 + i.val]'(by omega) = s.key[i]) ∧ t.init[12] = s.counter ∧
    ∀ i : Fin 3, t.init[13 + i.val]'(by omega) = s.nonce[i]

/-- `ADDBACK` adds each word of `I` to the same word of `W` modulo `2^32` and changes nothing else. -/
def Obligations.AddbackAddsEachWord : Prop :=
  ∀ s : State, ∃ t, exec .addback s = .next t ∧ t = { s with w := t.w, pending := none, done := true } ∧
    ∀ i : Fin 16, t.w[i].toNat = (s.w[i].toNat + s.init[i].toNat) % 2 ^ 32

/-- `SERIALIZE` writes `KS` only; keystream byte `4i + j` is bits `[8j+7:8j]` of `W[i]`. -/
def Obligations.SerializeIsLittleEndian : Prop :=
  ∀ s : State, ∃ t, exec .serialize s = .next t ∧ t = { s with ks := t.ks, pending := none, done := true } ∧
    ∀ (i : Fin 16) (j : Nat), j < 4 →
      (wordsLe t.ks.toList)[4 * i.val + j]? = some ((s.w[i]).extractLsb' (8 * j) 8)

/-- `BLOCK` is `LOADSTATE; PERMUTE; ADDBACK; SERIALIZE` issued in sequence, and is the block a host gets that observes
each of the 80 quarter rounds by its own command. -/
def Obligations.BlockEqualsItsSteps : Prop :=
  ∀ s : State, ∃ t, exec .block s = .next t ∧
    execSeq [.loadstate, .permute, .addback, .serialize] s = .next t ∧
    execSeq (.loadstate :: tenDoubleRoundsQrs ++ [.addback, .serialize]) s = .next t

/-- R91: after `DOBLOCK(ctr)`, `I` holds `INITIAL(ctr)` and `W` and `KS` the 16 output words; `COUNTER` and every other
register keep their values. That the block is a function of the key, the counter and the nonce alone is what R91 marks
as the spec's inference ("derived: from rule R90 and the rules it names"). -/
def Obligations.BlockIsFunctionOfKeyCounterNonce : Prop :=
  ∀ s : State, ∃ t, exec .block s = .next t ∧
    t = { s with init := t.init, w := t.w, ks := t.ks, pending := none, done := true } ∧
    t.init = initialState s.key s.nonce s.counter ∧ t.w = t.ks ∧
    (∀ i : Fin 16, t.ks[i] = (permutation t.init)[i] + t.init[i]) ∧
    ∀ u, u.key = s.key → u.nonce = s.nonce → u.counter = s.counter →
      ∃ t', exec .block u = .next t' ∧ t'.ks = t.ks ∧ t'.w = t.w ∧ t'.init = t.init

/-- `STREAM_XOR` exclusive-ors `DATA[0..DATA_LEN)` with the keystream from `COUNTER`, leaves every other byte and
`COUNTER` as they were, and leaves the last block computed in `I`, `W` and `KS`. -/
def Obligations.StreamXorAppliesKeystream : Prop :=
  ∀ s : State, Memory.wf s.mem → s.dataLen.toNat ≤ s.dataCap.val →
    s.counter.toNat + nblocks s.dataLen.toNat - 1 ≤ 2 ^ 32 - 1 →
    ∃ t, exec .streamXor s = .next t ∧
      t = { s with init := t.init, w := t.w, ks := t.ks, mem := t.mem, pending := none, done := true } ∧
      (∀ k, k < s.dataLen.toNat → Memory.read t.mem (0x2000 + k) =
        Memory.read s.mem (0x2000 + k) ^^^ keystreamByte s.key s.nonce s.counter k) ∧
      (∀ a, (a < 0x2000 ∨ 0x2000 + s.dataLen.toNat ≤ a) → Memory.read t.mem a = Memory.read s.mem a) ∧
      t.init = initialState s.key s.nonce (BitVec.ofNat 32 (s.counter.toNat + nblocks s.dataLen.toNat - 1)) ∧
      t.w = blockWords s.key s.nonce (BitVec.ofNat 32 (s.counter.toNat + nblocks s.dataLen.toNat - 1)) ∧ t.ks = t.w

/-- `STREAM_XOR` is its own inverse: issued twice with the same registers it restores every byte of memory. -/
def Obligations.StreamXorTwiceRestoresData : Prop :=
  ∀ s : State, Memory.wf s.mem → s.dataLen.toNat ≤ s.dataCap.val →
    s.counter.toNat + nblocks s.dataLen.toNat - 1 ≤ 2 ^ 32 - 1 →
    ∃ t, execSeq [.streamXor, .streamXor] s = .next t ∧ t.mem = s.mem ∧ t.dataLen = s.dataLen ∧ t.counter = s.counter

/-! ### Poly1305 -/

/-- The mask that clamping applies to byte `k` of `r` (R98). -/
def clampByte (k : Nat) : Byte :=
  if k = 3 ∨ k = 7 ∨ k = 11 ∨ k = 15 then 0x0F else if k = 4 ∨ k = 8 ∨ k = 12 then 0xFC else 0xFF

/-- R98: `r` is the first 16 bytes of the one-time key, masked byte by byte; `s` is the last 16 bytes, unmodified. R103:
`POLY_INIT` masks the four words, clears `ACC` and changes nothing else. That this is `le_int(r) & CLAMP` is what R98 and
R19 mark as the spec's inference ("derived: from the byte masks"). -/
def Obligations.PolyInitClampsAndSplits : Prop :=
  ∀ s : State, ∃ t, exec .polyInit s = .next t ∧
    t = { s with polyR := t.polyR, polyS := t.polyS, acc := 0, pending := none, done := true } ∧
    (∀ k, k < 16 → (wordsLe t.polyR.toList)[k]? =
      (wordsLe s.pkey.toList)[k]?.map fun b => b &&& clampByte k) ∧
    intOf t.polyR.toList = leInt ((wordsLe s.pkey.toList).take 16) &&& 0x0ffffffc0ffffffc0ffffffc0fffffff ∧
    t.polyR[0] = s.pkey[0] &&& 0x0fffffff ∧ t.polyR[1] = s.pkey[1] &&& 0x0ffffffc ∧
    t.polyR[2] = s.pkey[2] &&& 0x0ffffffc ∧ t.polyR[3] = s.pkey[3] &&& 0x0ffffffc ∧
    wordsLe t.polyS.toList = (wordsLe s.pkey.toList).drop 16

/-- R99: absorbing a chunk of `L` bytes adds it with its pad bit at position `8L`, multiplies by `int(R)` and reduces
modulo `2^130 - 5`, exactly; nothing but `ACC` changes. That the or of the pad bit is the addition is what R99 marks as
the spec's inference ("derived: from 00_scope.md rule R15"). -/
def Obligations.AbsorbAddsMultipliesReduces : Prop :=
  ∀ (s : State) (len : BitVec 5), 1 ≤ len.toNat → len.toNat ≤ 16 →
    let m := (wordsLe s.chunk.toList).take len.toNat
    m.length = len.toNat ∧ leInt m ||| 2 ^ (8 * len.toNat) = leInt m + 2 ^ (8 * len.toNat) ∧
    ∃ t, exec (.polyAbsorb len) s = .next t ∧ t = { s with acc := t.acc, pending := none, done := true } ∧
      t.acc = (s.acc + (leInt m + 2 ^ (8 * len.toNat))) * intOf s.polyR.toList % (2 ^ 130 - 5) ∧ t.acc < 2 ^ 130 - 5

/-- Bytes of `CHUNK` at and beyond `LEN` are ignored: two states that agree on everything but them absorb alike. -/
def Obligations.AbsorbIgnoresBytesBeyondLength : Prop :=
  ∀ (s u t t' : State) (len : BitVec 5), s = { u with chunk := s.chunk } →
    (∀ k, k < len.toNat → (wordsLe s.chunk.toList)[k]? = (wordsLe u.chunk.toList)[k]?) →
    exec (.polyAbsorb len) s = .next t → exec (.polyAbsorb len) u = .next t' → t = { t' with chunk := s.chunk }

/-- R101: `int(TAG) = (ACC + int(S)) mod 2^128`, word by word, and `ACC` is not changed. -/
def Obligations.FinalTagIsSum : Prop :=
  ∀ s : State, ∃ t, exec .polyFinal s = .next t ∧ t = { s with tag := t.tag, pending := none, done := true } ∧
    intOf t.tag.toList = (s.acc + intOf s.polyS.toList) % 2 ^ 128 ∧
    (∀ i : Fin 4, t.tag[i].toNat = (s.acc + intOf s.polyS.toList) / 2 ^ (32 * i.val) % 2 ^ 32) ∧ t.acc = s.acc

/-- `POLY_MAC` is Poly1305 of `DATA[0..DATA_LEN)` chunk by chunk: `POLY_INIT`, for each chunk of the message `CHUNK`
written and `POLY_ABSORB`, then `POLY_FINAL`, end in the same `R`, `S`, `ACC` and `TAG`. -/
def Obligations.MacEqualsChunkByChunk : Prop :=
  ∀ s : State, s.dataLen.toNat ≤ s.dataCap.val →
    ∃ t t0 t1 t2, exec .polyMac s = .next t ∧
      exec .polyInit s = .next t0 ∧ absorbChunks (chunksOf (dataBytes s)) t0 = .next t1 ∧
      exec .polyFinal t1 = .next t2 ∧
      t.polyR = t2.polyR ∧ t.polyS = t2.polyS ∧ t.acc = t2.acc ∧ t.tag = t2.tag

/-- `POLY_MAC` of a message: the accumulator of its chunks from 0 and the tag; it changes no byte, not `CHUNK`, and
nothing else; the empty message leaves `ACC = 0` and `TAG = S`. -/
def Obligations.MacOfDataAndOfNothing : Prop :=
  ∀ s : State, s.dataLen.toNat ≤ s.dataCap.val →
    ∃ t, exec .polyMac s = .next t ∧
      t = { s with polyR := t.polyR, polyS := t.polyS, acc := t.acc, tag := t.tag, pending := none, done := true } ∧
      t.acc = (chunksOf (dataBytes s)).foldl (absorb (intOf t.polyR.toList)) 0 ∧
      intOf t.tag.toList = (t.acc + intOf t.polyS.toList) % 2 ^ 128 ∧
      (s.dataLen = 0 → t.acc = 0 ∧ t.tag = t.polyS)

/-! ### The AEAD sequencer -/

/-- Both AEAD commands take the first 32 bytes of the counter-0 block as the one-time key, and clamp and split it;
`COUNTER` is neither read nor written (43_aead.md section 1). -/
def Obligations.OneTimeKeyIsFromBlockZero : Prop :=
  ∀ (i : Instr) (s : State), i = .aeadEnc ∨ i = .aeadDec →
    s.aadLen.toNat ≤ s.aadCap.val → s.dataLen.toNat ≤ s.dataCap.val →
    ∃ t, exec i s = .next t ∧
      wordsLe t.pkey.toList = (wordsLe (blockWords s.key s.nonce 0).toList).take 32 ∧
      t.polyR = clampWords t.pkey ∧ t.polyS = splitS t.pkey ∧ t.counter = s.counter ∧
      ∀ c, ∃ t', exec i { s with counter := c } = .next t' ∧ t' = { t with counter := c }

/-- Byte `k` of `MACDATA` as R109 spells it: the AAD padded with zeros to a multiple of 16, the data padded so, and the
two lengths in bytes, each as 8 bytes, the least significant first. -/
def macDataByte (s : State) (k : Nat) : Byte :=
  let a := s.aadLen.toNat
  let d := s.dataLen.toNat
  let aEnd := 16 * ((a + 15) / 16)
  let dEnd := aEnd + 16 * ((d + 15) / 16)
  if k < a then Memory.read s.mem (0x1000 + k)
  else if k < aEnd then 0
  else if k < aEnd + d then Memory.read s.mem (0x2000 + (k - aEnd))
  else if k < dEnd then 0
  else if k < dEnd + 8 then BitVec.ofNat 8 (a / 256 ^ (k - dEnd))
  else BitVec.ofNat 8 (d / 256 ^ (k - (dEnd + 8)))

/-- `AEAD_ENC`: the data exclusive-ored with the keystream from counter 1, then the tag over the ciphertext; no other
byte and no other register changes. The tag is Poly1305 of `MACDATA`, byte for byte as R109 spells it, absorbed chunk by
chunk from 0 and finalized (R110). -/
def Obligations.EncryptThenTag : Prop :=
  (∀ s : State,
    (macData s).length = 16 * ((s.aadLen.toNat + 15) / 16) + 16 * ((s.dataLen.toNat + 15) / 16) + 16 ∧
    ∀ k, k < (macData s).length → (macData s)[k]? = some (macDataByte s k)) ∧
  ∀ s : State, Memory.wf s.mem → s.aadLen.toNat ≤ s.aadCap.val → s.dataLen.toNat ≤ s.dataCap.val →
    ∃ t, exec .aeadEnc s = .next t ∧
      t = { s with
        seq := .encrypt, init := t.init, w := t.w, ks := t.ks, pkey := t.pkey, polyR := t.polyR, polyS := t.polyS,
        acc := t.acc, tag := t.tag, mem := t.mem, pending := none, done := true } ∧
      (∀ k, k < s.dataLen.toNat → Memory.read t.mem (0x2000 + k) =
        Memory.read s.mem (0x2000 + k) ^^^ keystreamByte s.key s.nonce 1 k) ∧
      (∀ a, (a < 0x2000 ∨ 0x2000 + s.dataLen.toNat ≤ a) → Memory.read t.mem a = Memory.read s.mem a) ∧
      t.acc = aeadAcc s.key s.nonce (macData t) ∧ t.tag = aeadTag s.key s.nonce (macData t) ∧
      t.acc = (chunksOf (macData t)).foldl (absorb (intOf t.polyR.toList)) 0 ∧
      intOf t.tag.toList = (t.acc + intOf t.polyS.toList) % 2 ^ 128 ∧
      t.init = initialState s.key s.nonce (BitVec.ofNat 32 (nblocks s.dataLen.toNat)) ∧
      t.w = blockWords s.key s.nonce (BitVec.ofNat 32 (nblocks s.dataLen.toNat)) ∧ t.ks = t.w

/-- R114: when the tag of the received ciphertext equals `TAGIN`, and only then, `AEAD_DEC` decrypts: the keystream from
counter 1 is exclusive-ored into `DATA[0..DATA_LEN)`, `SEQ` is `DECRYPT` and `AUTH_OK` is 1; `I`, `W` and `KS` hold the
last payload block (R117). -/
def Obligations.DecryptOnMatch : Prop :=
  ∀ s : State, Memory.wf s.mem → s.aadLen.toNat ≤ s.aadCap.val → s.dataLen.toNat ≤ s.dataCap.val →
    ∃ t, exec .aeadDec s = .next t ∧ (t.seq = .decrypt ↔ aeadTag s.key s.nonce (macData s) = s.tagIn) ∧
      (aeadTag s.key s.nonce (macData s) = s.tagIn →
        t = { s with
          seq := .decrypt, authOk := true, init := t.init, w := t.w, ks := t.ks, pkey := t.pkey, polyR := t.polyR,
          polyS := t.polyS, acc := t.acc, tag := s.tagIn, mem := t.mem, pending := none, done := true } ∧
        (∀ k, k < s.dataLen.toNat → Memory.read t.mem (0x2000 + k) =
          Memory.read s.mem (0x2000 + k) ^^^ keystreamByte s.key s.nonce 1 k) ∧
        (∀ a, (a < 0x2000 ∨ 0x2000 + s.dataLen.toNat ≤ a) → Memory.read t.mem a = Memory.read s.mem a) ∧
        t.acc = aeadAcc s.key s.nonce (macData s) ∧
        t.init = initialState s.key s.nonce (BitVec.ofNat 32 (nblocks s.dataLen.toNat)) ∧
        t.w = blockWords s.key s.nonce (BitVec.ofNat 32 (nblocks s.dataLen.toNat)) ∧ t.ks = t.w)

/-- R115: when the tags differ, `AEAD_DEC` writes no byte, sets `TAG` and `ACC` to 0 and `AUTH_FAIL` to 1, ends in
`REJECTED`, and leaves `I`, `W`, `KS`, `PKEY`, `R` and `S` as the counter-0 block and the one-time key. -/
def Obligations.RejectOnMismatch : Prop :=
  ∀ s : State, s.aadLen.toNat ≤ s.aadCap.val → s.dataLen.toNat ≤ s.dataCap.val →
    aeadTag s.key s.nonce (macData s) ≠ s.tagIn →
    exec .aeadDec s = .next { s with
      seq := .rejected, authFail := true, tag := #v[0, 0, 0, 0], acc := 0,
      init := initialState s.key s.nonce 0, w := blockWords s.key s.nonce 0, ks := blockWords s.key s.nonce 0,
      pkey := oneTimeKey s.key s.nonce, polyR := clampWords (oneTimeKey s.key s.nonce),
      polyS := splitS (oneTimeKey s.key s.nonce), pending := none, done := true }

/-- No byte is written by `AEAD_DEC` unless the tag over the complete authenticated data equals `TAGIN`, and while it is
pending no read but those of `ID` and `STATUS` answers anything but 0 (43_aead.md section 3, the spec's inference). -/
def Obligations.NoPlaintextBeforeVerification : Prop :=
  (∀ (s t : State) (a : Nat), exec .aeadDec s = .next t → Memory.read t.mem a ≠ Memory.read s.mem a →
    aeadTag s.key s.nonce (macData s) = s.tagIn ∧ t.authOk = true) ∧
  (∀ (s t : State) (off : Nat), s.pending = some (encode .aeadDec) → off ≠ 0x000 → off ≠ 0x004 → off < 0x3000 →
    off % 4 = 0 → transact (.read off 4) s = .next t → t.response = .value 0)

/-- Decrypting what was encrypted, with the tag that was computed, accepts and gives every byte back. -/
def Obligations.DecryptUndoesEncrypt : Prop :=
  ∀ s : State, Memory.wf s.mem → s.aadLen.toNat ≤ s.aadCap.val → s.dataLen.toNat ≤ s.dataCap.val →
    ∃ t u, exec .aeadEnc s = .next t ∧ exec .aeadDec { t with tagIn := t.tag } = .next u ∧
      u.authOk = true ∧ u.seq = .decrypt ∧ u.tag = t.tag ∧ u.mem = s.mem

/-- R111: the comparison is true exactly when all 16 byte pairs are equal: each one counts, wherever it stands. -/
def Obligations.ComparisonCountsEveryByte : Prop :=
  ∀ s : State, tagsEqual s = true ↔
    ∀ k, k < 16 → (wordsLe s.tag.toList)[k]? = (wordsLe s.tagIn.toList)[k]?

/-! ### What commands leave alone -/

/-- No command but `CLEAR` writes `KEY`, `NONCE`, `COUNTER`, `CHUNK`, `TAGIN`, `AAD_LEN`, `DATA_LEN` or `OVR`, or any
byte of memory outside `DATA[0..DATA_LEN)`; none writes the host's state or the order of turns. -/
def Obligations.OnlyClearWritesInputs : Prop :=
  ∀ (i : Instr) (s t : State), Memory.wf s.mem → exec i s = .next t →
    (t.response = s.response ∧ t.program = s.program ∧ t.hostPc = s.hostPc ∧ t.temps = s.temps ∧
      t.expectFailed = s.expectFailed ∧ t.turns = s.turns ∧ t.aadCap = s.aadCap ∧ t.dataCap = s.dataCap) ∧
    (i ≠ .clear →
      t.key = s.key ∧ t.nonce = s.nonce ∧ t.counter = s.counter ∧ t.chunk = s.chunk ∧ t.tagIn = s.tagIn ∧
      t.aadLen = s.aadLen ∧ t.dataLen = s.dataLen ∧ t.ovr = s.ovr ∧
      ∀ a, (a < 0x2000 ∨ 0x2000 + s.dataLen.toNat ≤ a) → Memory.read t.mem a = Memory.read s.mem a)

/-- The frame of the commands that store no byte: `NOP` and the permutation, block and Poly1305 commands write the
registers named here, complete, and change nothing else, every byte of memory included. -/
def Obligations.FrameOfRegisterCommands : Prop :=
  ∀ (i : Instr) (s t : State), checkInstr i s = .noError → exec i s = .next t →
    ((i = .nop) → t = { s with pending := none, done := true }) ∧
    ((∃ a b c d, i = .qr a b c d) ∨ i = .colround ∨ i = .diaground ∨ i = .doubleround ∨ i = .permute ∨ i = .addback →
      t = { s with w := t.w, pending := none, done := true } ∧
      ∀ x, Memory.read t.mem x = Memory.read s.mem x) ∧
    (i = .loadstate → t = { s with init := t.init, w := t.w, pending := none, done := true } ∧
      ∀ x, Memory.read t.mem x = Memory.read s.mem x) ∧
    (i = .serialize → t = { s with ks := t.ks, pending := none, done := true } ∧
      ∀ x, Memory.read t.mem x = Memory.read s.mem x) ∧
    (i = .block → t = { s with init := t.init, w := t.w, ks := t.ks, pending := none, done := true } ∧
      ∀ x, Memory.read t.mem x = Memory.read s.mem x) ∧
    (i = .polyInit → t = { s with polyR := t.polyR, polyS := t.polyS, acc := t.acc, pending := none, done := true } ∧
      ∀ x, Memory.read t.mem x = Memory.read s.mem x) ∧
    ((∃ len, i = .polyAbsorb len) → t = { s with acc := t.acc, pending := none, done := true } ∧
      ∀ x, Memory.read t.mem x = Memory.read s.mem x) ∧
    (i = .polyFinal → t = { s with tag := t.tag, pending := none, done := true } ∧
      ∀ x, Memory.read t.mem x = Memory.read s.mem x) ∧
    (i = .polyMac → t = { s with
        polyR := t.polyR, polyS := t.polyS, acc := t.acc, tag := t.tag, pending := none, done := true } ∧
      ∀ x, Memory.read t.mem x = Memory.read s.mem x)

/-- The frame of the commands that store into `DATA`: each stores only into the `DATA_LEN` bytes from offset 0x2000, and
writes no register but those named here. -/
def Obligations.FrameOfStoringCommands : Prop :=
  ∀ (i : Instr) (s t : State), Memory.wf s.mem → checkInstr i s = .noError → exec i s = .next t →
    i = .streamXor ∨ i = .aeadEnc ∨ i = .aeadDec →
    (∀ a, ¬ (dataBase ≤ a ∧ a < dataBase + s.dataLen.toNat) → Memory.read t.mem a = Memory.read s.mem a) ∧
    (i = .streamXor →
      t = { s with init := t.init, w := t.w, ks := t.ks, mem := t.mem, pending := none, done := true }) ∧
    (i = .aeadEnc →
      t = { s with
        seq := .encrypt, init := t.init, w := t.w, ks := t.ks, pkey := t.pkey, polyR := t.polyR, polyS := t.polyS,
        acc := t.acc, tag := t.tag, mem := t.mem, pending := none, done := true }) ∧
    (i = .aeadDec →
      t = { s with
        seq := t.seq, authOk := t.authOk, authFail := t.authFail, init := t.init, w := t.w, ks := t.ks,
        pkey := t.pkey, polyR := t.polyR, polyS := t.polyS, acc := t.acc, tag := t.tag, mem := t.mem,
        pending := none, done := true })

/-- `SEQ` is written only at the completion of `AEAD_ENC` (`ENCRYPT`), of `AEAD_DEC` (`DECRYPT` or `REJECTED`) and of
`CLEAR` (`IDLE`), and at reset; no other turn of any agent changes it (10_state.md section 3). -/
def Obligations.SequencerWrittenOnlyAtCompletion : Prop :=
  ∀ (turn : Turn) (s t : State), takeTurn turn s = .next t → t.seq ≠ s.seq →
    ((∃ draw, turn = .reset draw) ∧ t.seq = .idle) ∨
    (turn = .engine ∧
      ((s.pending = some (encode .aeadEnc) ∧ t.seq = .encrypt) ∨
       (s.pending = some (encode .aeadDec) ∧ (t.seq = .decrypt ∨ t.seq = .rejected)) ∨
       (s.pending = some (encode .clear) ∧ t.seq = .idle)))

/-- Bytes of `AAD` and `DATA` at and beyond the lengths are never read: two states that differ only in them are taken by
every command to states that differ only in them. -/
def Obligations.BytesBeyondLengthsDoNotMatter : Prop :=
  ∀ (i : Instr) (s u t t' : State), Memory.wf s.mem → Memory.wf u.mem → sameOperands s u →
    exec i s = .next t → exec i u = .next t' → sameOperands t t'
end

