-- ==== Sys2Proof/Laws/Words.lean ====
section
/-!
SUPPORT. Byte strings and the integers they spell (00_scope.md R15, R16): lengths, bounds, and that splitting an integer
into bytes or words and reading it back is reduction modulo its width.
-/

namespace Sys2Proof.Machine

@[simp] theorem leBytes_length (n v : Nat) : (leBytes n v).length = n := by simp [leBytes]

@[simp] theorem zeros_length (n : Nat) : (zeros n).length = n := by simp [zeros]

theorem leBytes_getElem (n v k : Nat) (h : k < (leBytes n v).length) :
    (leBytes n v)[k] = BitVec.ofNat 8 (v >>> (8 * k)) := by
  simp [leBytes]

theorem leBytes_succ (n v : Nat) : leBytes (n + 1) v = BitVec.ofNat 8 v :: leBytes n (v / 256) := by
  simp only [leBytes, List.range_succ_eq_map, List.map_cons, List.map_map]
  congr 1
  apply List.map_congr_left
  intro k _
  simp only [Function.comp, Nat.shiftRight_eq_div_pow]
  rw [Nat.div_div_eq_div_mul, show 8 * (k + 1) = 8 + 8 * k by ring, pow_add, show (2 : Nat) ^ 8 = 256 from rfl]

theorem leInt_leBytes (n : Nat) : ∀ v, leInt (leBytes n v) = v % 2 ^ (8 * n) := by
  induction n with
  | zero => intro v; simp [leBytes, leInt, Nat.mod_one]
  | succ n ih =>
    intro v
    rw [leBytes_succ, leInt, ih, BitVec.toNat_ofNat, show 8 * (n + 1) = 8 + 8 * n by ring, pow_add,
      Nat.mod_mul]
    norm_num

theorem leInt_lt (bs : List Byte) : leInt bs < 2 ^ (8 * bs.length) := by
  induction bs with
  | nil => simp [leInt]
  | cons b bs ih =>
    have hb := b.isLt
    rw [leInt, List.length_cons, show 8 * (bs.length + 1) = 8 + 8 * bs.length by ring, pow_add]
    omega

theorem leInt_append (as bs : List Byte) : leInt (as ++ bs) = leInt as + 2 ^ (8 * as.length) * leInt bs := by
  induction as with
  | nil => simp [leInt]
  | cons a as ih =>
    rw [List.cons_append, leInt, leInt, ih, List.length_cons, show 8 * (as.length + 1) = 8 + 8 * as.length by ring,
      pow_add]
    ring

theorem intOf_lt (ws : List Word) : intOf ws < 2 ^ (32 * ws.length) := by
  induction ws with
  | nil => simp [intOf]
  | cons x xs ih =>
    have hx := x.isLt
    rw [intOf, List.length_cons, show 32 * (xs.length + 1) = 32 + 32 * xs.length by ring, pow_add]
    omega

@[simp] theorem wordsLe_nil : wordsLe [] = [] := rfl

theorem wordsLe_cons (x : Word) (xs : List Word) : wordsLe (x :: xs) = leBytes 4 x.toNat ++ wordsLe xs := rfl

@[simp] theorem wordsLe_length (ws : List Word) : (wordsLe ws).length = 4 * ws.length := by
  induction ws with
  | nil => rfl
  | cons x xs ih => rw [wordsLe_cons, List.length_append, ih, leBytes_length, List.length_cons]; ring

/-- `le_int(words_le(w)) = int(w)`: the byte string of a register file spells the file's integer. -/
theorem leInt_wordsLe (ws : List Word) : leInt (wordsLe ws) = intOf ws := by
  induction ws with
  | nil => rfl
  | cons x xs ih =>
    rw [wordsLe_cons, leInt_append, ih, leInt_leBytes, intOf, leBytes_length, Nat.mod_eq_of_lt x.isLt]

theorem leInt_inj : ∀ {as bs : List Byte}, as.length = bs.length → leInt as = leInt bs → as = bs
  | [], [], _, _ => rfl
  | a :: as, b :: bs, hl, h => by
    simp only [leInt] at h
    have ha := a.isLt
    have hb := b.isLt
    have h1 : a.toNat = b.toNat := by omega
    have h2 : a = b := BitVec.eq_of_toNat_eq h1
    have h3 : as = bs := leInt_inj (by simpa using hl) (by omega)
    rw [h2, h3]

theorem intOf_inj : ∀ {as bs : List Word}, as.length = bs.length → intOf as = intOf bs → as = bs
  | [], [], _, _ => rfl
  | a :: as, b :: bs, hl, h => by
    simp only [intOf] at h
    have ha := a.isLt
    have hb := b.isLt
    have h1 : a.toNat = b.toNat := by omega
    have h2 : a = b := BitVec.eq_of_toNat_eq h1
    have h3 : as = bs := intOf_inj (by simpa using hl) (by omega)
    rw [h2, h3]

theorem wordsLe_inj {as bs : List Word} (hl : as.length = bs.length) (h : wordsLe as = wordsLe bs) : as = bs :=
  intOf_inj hl (by rw [← leInt_wordsLe, ← leInt_wordsLe, h])

/-- Byte `4i + j` of `words_le(w)` is bits `[8j+7:8j]` of word `i`. -/
theorem wordsLe_getElem (ws : List Word) (i j : Nat) (hi : i < ws.length) (hj : j < 4) :
    (wordsLe ws)[4 * i + j]'(by rw [wordsLe_length]; omega) = (ws[i]).extractLsb' (8 * j) 8 := by
  induction ws generalizing i with
  | nil => simp at hi
  | cons x xs ih =>
    cases i with
    | zero =>
      simp only [wordsLe_cons]
      rw [List.getElem_append_left (by simp; omega), leBytes_getElem]
      simp only [Nat.mul_zero, Nat.zero_add, List.getElem_cons_zero]
      apply BitVec.eq_of_toNat_eq
      simp [BitVec.extractLsb'_toNat]
    | succ i =>
      simp only [wordsLe_cons]
      rw [List.getElem_append_right (by simp; omega)]
      simp only [leBytes_length, List.getElem_cons_succ]
      rw [← ih i (by simpa using hi)]
      congr 1
      omega

/-- The words of an integer, read back: the integer modulo the width. -/
theorem intOf_words4 (t : Nat) : intOf [wordOf t 0, wordOf t 1, wordOf t 2, wordOf t 3] = t % 2 ^ 128 := by
  simp only [intOf, wordOf, BitVec.toNat_ofNat, Nat.shiftRight_eq_div_pow]
  norm_num
  omega

theorem words4_of_intOf (a b c d : Word) (t : Nat) (h : t % 2 ^ 128 = intOf [a, b, c, d]) :
    [wordOf t 0, wordOf t 1, wordOf t 2, wordOf t 3] = [a, b, c, d] :=
  intOf_inj rfl ((intOf_words4 t).trans h)

end Sys2Proof.Machine
end

