-- ==== Sys2Proof/Laws/Memory.lean ====
section
/-!
SUPPORT. The laws of the buffers' bytes: a read after a write, that every operation keeps the canonical form and the
place of the bytes, and that two canonical memories that read the same are equal.
-/

namespace Sys2Proof.Machine

/-! ### One byte -/

@[simp] theorem Memory.read_nil (a : Nat) : Memory.read [] a = 0 := rfl

theorem Memory.read_cons (k : Nat) (b : Byte) (m : Memory) (a : Nat) :
    Memory.read ((k, b) :: m) a = if k = a then b else Memory.read m a := rfl

theorem Memory.wf_cons {k : Nat} {b : Byte} {m : Memory} :
    Memory.wf ((k, b) :: m) ↔ (∀ c ∈ m, k < c.1) ∧ b ≠ 0 ∧ Memory.wf m := by
  simp only [Memory.wf, List.map_cons, List.pairwise_cons, List.mem_map, List.mem_cons]
  constructor
  · rintro ⟨⟨h1, h2⟩, h3⟩
    exact ⟨fun c hc => h1 _ ⟨c, hc, rfl⟩, h3 (k, b) (.inl rfl), h2, fun c hc => h3 c (.inr hc)⟩
  · rintro ⟨h1, h2, h3, h4⟩
    refine ⟨⟨?_, h3⟩, ?_⟩
    · rintro _ ⟨c, hc, rfl⟩; exact h1 c hc
    · rintro c (rfl | hc)
      · exact h2
      · exact h4 c hc

theorem Memory.read_eq_zero_of_lt {m : Memory} {a : Nat} (h : ∀ c ∈ m, a < c.1) : Memory.read m a = 0 := by
  induction m with
  | nil => rfl
  | cons c m ih =>
    obtain ⟨k, b⟩ := c
    have hk : a < k := h (k, b) (by simp)
    rw [Memory.read_cons, if_neg (by omega), ih fun c hc => h c (by simp [hc])]

/-- An address a write leaves listed was listed before, or is the written one. -/
theorem Memory.mem_write {m : Memory} {a : Nat} {v : Byte} {c : Host.Cell} (h : c ∈ Memory.write m a v) :
    c ∈ m ∨ c = (a, v) := by
  induction m with
  | nil =>
    rw [Memory.write] at h
    split at h <;> simp_all
  | cons d m ih =>
    obtain ⟨k, b⟩ := d
    rw [Memory.write] at h
    repeat' split at h
    all_goals simp only [List.mem_cons] at h ⊢
    all_goals tauto

/-- A write keeps the canonical form. -/
theorem Memory.write_wf {m : Memory} (h : Memory.wf m) (a : Nat) (v : Byte) : Memory.wf (Memory.write m a v) := by
  induction m with
  | nil =>
    rw [Memory.write]
    split
    · exact h
    · rw [Memory.wf_cons]; exact ⟨by simp, ‹_›, by simp [Memory.wf]⟩
  | cons d m ih =>
    obtain ⟨k, b⟩ := d
    obtain ⟨h1, h2, h3⟩ := Memory.wf_cons.1 h
    rw [Memory.write]
    split_ifs with h4 h5 h6 h7
    · exact h
    · rw [Memory.wf_cons]
      refine ⟨?_, h5, h⟩
      intro c hc
      rcases List.mem_cons.1 hc with rfl | hc
      · exact h4
      · have := h1 c hc; omega
    · exact h3
    · subst h6
      rw [Memory.wf_cons]
      exact ⟨h1, h7, h3⟩
    · rw [Memory.wf_cons]
      refine ⟨?_, h2, ih h3⟩
      intro c hc
      rcases Memory.mem_write hc with hc | rfl
      · exact h1 c hc
      · simp only; omega

/-- The byte just written, in a canonical memory. -/
theorem Memory.read_write {m : Memory} (h : Memory.wf m) (a : Nat) (v : Byte) (x : Nat) :
    Memory.read (Memory.write m a v) x = if x = a then v else Memory.read m x := by
  induction m with
  | nil =>
    rw [Memory.write]
    split
    · subst v; simp
    · rw [Memory.read_cons]
      simp only [Memory.read_nil, eq_comm (a := a)]
  | cons d m ih =>
    obtain ⟨k, b⟩ := d
    obtain ⟨h1, h2, h3⟩ := Memory.wf_cons.1 h
    rw [Memory.write]
    by_cases hx : x = a
    · subst hx
      rw [if_pos rfl]
      split_ifs with h4 h5 h6 h7
      · rw [Memory.read_cons, if_neg (by omega), h5]
        exact Memory.read_eq_zero_of_lt fun c hc => lt_trans h4 (h1 c hc)
      · rw [Memory.read_cons, if_pos rfl]
      · subst h6 h7
        exact Memory.read_eq_zero_of_lt h1
      · rw [Memory.read_cons, if_pos rfl]
      · rw [Memory.read_cons, if_neg (fun h => h6 h.symm), ih h3, if_pos rfl]
    · rw [if_neg hx]
      split_ifs with h4 h5 h6 h7
      · rfl
      · rw [Memory.read_cons, if_neg (fun h => hx h.symm)]
      · rw [Memory.read_cons, if_neg (fun h => hx (h.symm.trans h6.symm))]
      · rw [Memory.read_cons, Memory.read_cons, if_neg (fun h => hx h.symm),
          if_neg (fun h => hx (h.symm.trans h6.symm))]
      · rw [Memory.read_cons, Memory.read_cons, ih h3, if_neg hx]

theorem Memory.read_write_other {m : Memory} (h : Memory.wf m) {a x : Nat} (v : Byte) (hx : x ≠ a) :
    Memory.read (Memory.write m a v) x = Memory.read m x := by
  rw [Memory.read_write h, if_neg hx]

/-- Two canonical memories that read the same at every address are equal. -/
theorem Memory.ext_of_read : ∀ {m m' : Memory}, Memory.wf m → Memory.wf m' →
    (∀ a, Memory.read m a = Memory.read m' a) → m = m'
  | [], [], _, _, _ => rfl
  | [], (k, b) :: m, _, h, e => by
    obtain ⟨_, h2, _⟩ := Memory.wf_cons.1 h
    have := e k
    rw [Memory.read_cons, if_pos rfl] at this
    exact absurd this.symm h2
  | (k, b) :: m, [], h, _, e => by
    obtain ⟨_, h2, _⟩ := Memory.wf_cons.1 h
    have := e k
    rw [Memory.read_cons, if_pos rfl] at this
    exact absurd this h2
  | (k, b) :: m, (k', b') :: m', h, h', e => by
    obtain ⟨h1, h2, h3⟩ := Memory.wf_cons.1 h
    obtain ⟨h1', h2', h3'⟩ := Memory.wf_cons.1 h'
    have hk : k = k' := by
      have e1 := e k
      have e2 := e k'
      rw [Memory.read_cons, if_pos rfl, Memory.read_cons] at e1
      rw [Memory.read_cons, Memory.read_cons, if_pos rfl] at e2
      rcases lt_trichotomy k k' with hlt | heq | hgt
      · rw [if_neg (by omega), Memory.read_eq_zero_of_lt fun c hc => lt_trans hlt (h1' c hc)] at e1
        exact absurd e1 h2
      · exact heq
      · rw [if_neg (by omega), Memory.read_eq_zero_of_lt fun c hc => lt_trans hgt (h1 c hc)] at e2
        exact absurd e2.symm h2'
    subst hk
    have hb : b = b' := by simpa [Memory.read_cons] using e k
    have hm : m = m' := by
      refine Memory.ext_of_read h3 h3' fun a => ?_
      by_cases ha : k = a
      · subst ha
        rw [Memory.read_eq_zero_of_lt h1, Memory.read_eq_zero_of_lt h1']
      · simpa [Memory.read_cons, ha] using e a
    rw [hb, hm]

/-! ### Byte strings -/

@[simp] theorem Memory.readBytes_length (m : Memory) (a n : Nat) : (Memory.readBytes m a n).length = n := by
  simp [Memory.readBytes]

theorem Memory.readBytes_getElem (m : Memory) (a n k : Nat) (h : k < (Memory.readBytes m a n).length) :
    (Memory.readBytes m a n)[k] = Memory.read m (a + k) := by simp [Memory.readBytes]

theorem Memory.readBytes_congr {m m' : Memory} {a n : Nat}
    (h : ∀ k, k < n → Memory.read m (a + k) = Memory.read m' (a + k)) :
    Memory.readBytes m a n = Memory.readBytes m' a n :=
  List.map_congr_left fun k hk => h k (List.mem_range.1 hk)

theorem Memory.writeBytes_wf {bs : List Byte} : ∀ {m : Memory} (_ : Memory.wf m) (a : Nat),
    Memory.wf (Memory.writeBytes m a bs) := by
  induction bs with
  | nil => intro m h a; exact h
  | cons b bs ih => intro m h a; exact ih (Memory.write_wf h a b) (a + 1)

/-- A stored byte string: its own bytes inside, everything else unchanged. -/
theorem Memory.read_writeBytes {bs : List Byte} : ∀ {m : Memory} (_ : Memory.wf m) (a x : Nat),
    Memory.read (Memory.writeBytes m a bs) x =
      if h : a ≤ x ∧ x < a + bs.length then bs[x - a]'(by omega) else Memory.read m x := by
  induction bs with
  | nil => intro m _ a x; simp [Memory.writeBytes]
  | cons b bs ih =>
    intro m h a x
    rw [Memory.writeBytes, ih (Memory.write_wf h a b), Memory.read_write h]
    simp only [List.length_cons]
    by_cases h1 : x = a
    · subst h1
      rw [dif_neg (by omega), if_pos rfl, dif_pos (by omega)]
      simp
    · by_cases h2 : a ≤ x ∧ x < a + (bs.length + 1)
      · rw [dif_pos (by omega), dif_pos h2]
        obtain ⟨d, rfl⟩ : ∃ d, x = a + 1 + d := ⟨x - a - 1, by omega⟩
        simp [show a + 1 + d - a = d + 1 by omega]
      · rw [dif_neg (by omega), dif_neg h2, if_neg h1]

theorem Memory.xorBytes_wf {bs : List Byte} : ∀ {m : Memory} (_ : Memory.wf m) (a : Nat),
    Memory.wf (Memory.xorBytes m a bs) := by
  induction bs with
  | nil => intro m h a; exact h
  | cons b bs ih => intro m h a; exact ih (Memory.write_wf h a _) (a + 1)

/-- A byte string exclusive-ored into memory: byte by byte inside, everything else unchanged. -/
theorem Memory.read_xorBytes {bs : List Byte} : ∀ {m : Memory} (_ : Memory.wf m) (a x : Nat),
    Memory.read (Memory.xorBytes m a bs) x =
      if h : a ≤ x ∧ x < a + bs.length then Memory.read m x ^^^ bs[x - a]'(by omega) else Memory.read m x := by
  induction bs with
  | nil => intro m _ a x; simp [Memory.xorBytes]
  | cons b bs ih =>
    intro m h a x
    rw [Memory.xorBytes, ih (Memory.write_wf h a _), Memory.read_write h]
    simp only [List.length_cons]
    by_cases h1 : x = a
    · subst h1
      rw [dif_neg (by omega), if_pos rfl, dif_pos (by omega)]
      simp
    · by_cases h2 : a ≤ x ∧ x < a + (bs.length + 1)
      · rw [dif_pos (by omega), dif_pos h2, if_neg h1]
        obtain ⟨d, rfl⟩ : ∃ d, x = a + 1 + d := ⟨x - a - 1, by omega⟩
        simp [show a + 1 + d - a = d + 1 by omega]
      · rw [dif_neg (by omega), dif_neg h2, if_neg h1]

/-! ### Where the bytes lie -/

/-- Every listed byte lies where a predicate holds. -/
abbrev Memory.within (p : Nat → Bool) (m : Memory) : Prop := ∀ c ∈ m, p c.1 = true

theorem Memory.write_within {p : Nat → Bool} {m : Memory} (h : Memory.within p m) {a : Nat} (ha : p a = true)
    (v : Byte) : Memory.within p (Memory.write m a v) := by
  intro c hc
  rcases Memory.mem_write hc with hc | rfl
  · exact h c hc
  · exact ha

theorem Memory.writeBytes_within {p : Nat → Bool} {bs : List Byte} : ∀ {m : Memory} (_ : Memory.within p m)
    {a : Nat} (_ : ∀ k, k < bs.length → p (a + k) = true), Memory.within p (Memory.writeBytes m a bs) := by
  induction bs with
  | nil => intro m h a _; exact h
  | cons b bs ih =>
    intro m h a ha
    refine ih (Memory.write_within h (by simpa using ha 0 (by simp)) b) fun k hk => ?_
    have := ha (k + 1) (by simpa using hk)
    rwa [show a + (k + 1) = a + 1 + k by omega] at this

theorem Memory.xorBytes_within {p : Nat → Bool} {bs : List Byte} : ∀ {m : Memory} (_ : Memory.within p m)
    {a : Nat} (_ : ∀ k, k < bs.length → p (a + k) = true), Memory.within p (Memory.xorBytes m a bs) := by
  induction bs with
  | nil => intro m h a _; exact h
  | cons b bs ih =>
    intro m h a ha
    refine ih (Memory.write_within h (by simpa using ha 0 (by simp)) _) fun k hk => ?_
    have := ha (k + 1) (by simpa using hk)
    rwa [show a + (k + 1) = a + 1 + k by omega] at this

/-! ### Reset -/

theorem drawnMemory_wf_within (aadCap dataCap : Nat) (cells : List Host.Cell) :
    Memory.wf (drawnMemory aadCap dataCap cells) ∧
      Memory.within (inBuffer aadCap dataCap) (drawnMemory aadCap dataCap cells) := by
  have key : ∀ (cells : List Host.Cell) (m : Memory), Memory.wf m ∧ Memory.within (inBuffer aadCap dataCap) m →
      Memory.wf (cells.foldl (fun m c => if inBuffer aadCap dataCap c.1 then Memory.write m c.1 c.2 else m) m) ∧
      Memory.within (inBuffer aadCap dataCap)
        (cells.foldl (fun m c => if inBuffer aadCap dataCap c.1 then Memory.write m c.1 c.2 else m) m) := by
    intro cells
    induction cells with
    | nil => intro m h; exact h
    | cons c cells ih =>
      intro m h
      rw [List.foldl_cons]
      apply ih
      split
      · exact ⟨Memory.write_wf h.1 _ _, Memory.write_within h.2 ‹_› _⟩
      · exact h
  exact key cells [] ⟨by simp [Memory.wf], by simp [Memory.within]⟩

theorem reset_mem_wf : Memory.wf State.reset.mem := by simp [Memory.wf, State.reset]

end Sys2Proof.Machine
end

