-- ==== Sys2Proof/Laws/Block.lean ====
section
/-!
SUPPORT. What one keystream block and a whole payload do to the state: everything they can do is said here once
(`doBlock_eq`, `streamFrom_eq`, `read_streamFrom`), and later proofs cite it.
-/

namespace Sys2Proof.Machine

theorem doBlock_eq (ctr : Word) (s : State) :
    doBlock ctr s = { s with
      init := initialState s.key s.nonce ctr
      w := blockWords s.key s.nonce ctr
      ks := blockWords s.key s.nonce ctr } := by
  simp only [doBlock, serializeState, addBack, permuteState, loadState, blockWords]

theorem xorBlock_eq (ctr : Word) (n : Nat) (s : State) (j : Nat) :
    xorBlock ctr n s j = { s with
      init := initialState s.key s.nonce (BitVec.ofNat 32 (ctr.toNat + j))
      w := blockWords s.key s.nonce (BitVec.ofNat 32 (ctr.toNat + j))
      ks := blockWords s.key s.nonce (BitVec.ofNat 32 (ctr.toNat + j))
      mem := Memory.xorBytes s.mem (dataBase + 64 * j)
        ((wordsLe (blockWords s.key s.nonce (BitVec.ofNat 32 (ctr.toNat + j))).toList).take (n - 64 * j)) } := by
  simp only [xorBlock, doBlock_eq, blockBytes]

@[simp] theorem blockBytes_length (s : State) : (blockBytes s).length = 64 := by simp [blockBytes]

theorem one_le_nblocks (n : Nat) : 1 ≤ nblocks n := Nat.le_max_left _ _

theorem le_nblocks (n : Nat) : n ≤ 64 * nblocks n := by unfold nblocks; omega

/-- The state after `k + 1` of the blocks of a payload: the last block's `I`, `W` and `KS`, and some memory. -/
theorem xorBlocks_eq (ctr : Word) (n : Nat) (s : State) (k : Nat) :
    ∃ m, (List.range (k + 1)).foldl (xorBlock ctr n) s = { s with
      init := initialState s.key s.nonce (BitVec.ofNat 32 (ctr.toNat + k))
      w := blockWords s.key s.nonce (BitVec.ofNat 32 (ctr.toNat + k))
      ks := blockWords s.key s.nonce (BitVec.ofNat 32 (ctr.toNat + k))
      mem := m } := by
  induction k with
  | zero =>
    simp only [Nat.zero_add, List.range_one, List.foldl_cons, List.foldl_nil, xorBlock_eq]
    exact ⟨_, rfl⟩
  | succ k ih =>
    obtain ⟨m, hm⟩ := ih
    rw [List.range_succ, List.foldl_append, hm]
    simp only [List.foldl_cons, List.foldl_nil, xorBlock_eq]
    exact ⟨_, rfl⟩

/-- Everything a payload can change: `I`, `W`, `KS`, as its last block leaves them, and the bytes of memory. -/
theorem streamFrom_eq (ctr : Word) (n : Nat) (s : State) :
    streamFrom ctr n s = { s with
      init := initialState s.key s.nonce (BitVec.ofNat 32 (ctr.toNat + (nblocks n - 1)))
      w := blockWords s.key s.nonce (BitVec.ofNat 32 (ctr.toNat + (nblocks n - 1)))
      ks := blockWords s.key s.nonce (BitVec.ofNat 32 (ctr.toNat + (nblocks n - 1)))
      mem := (streamFrom ctr n s).mem } := by
  obtain ⟨m, hm⟩ := xorBlocks_eq ctr n s (nblocks n - 1)
  have h : nblocks n - 1 + 1 = nblocks n := Nat.sub_add_cancel (one_le_nblocks n)
  rw [h] at hm
  unfold streamFrom
  rw [hm]

theorem xorBlocks_key (ctr : Word) (n : Nat) (s : State) (k : Nat) :
    ((List.range k).foldl (xorBlock ctr n) s).key = s.key ∧
      ((List.range k).foldl (xorBlock ctr n) s).nonce = s.nonce := by
  cases k with
  | zero => exact ⟨rfl, rfl⟩
  | succ k => obtain ⟨m, hm⟩ := xorBlocks_eq ctr n s k; rw [hm]; exact ⟨rfl, rfl⟩

theorem xorBlock_mem (ctr : Word) (n : Nat) (s : State) (j : Nat) :
    (xorBlock ctr n s j).mem = Memory.xorBytes s.mem (dataBase + 64 * j)
      ((wordsLe (blockWords s.key s.nonce (BitVec.ofNat 32 (ctr.toNat + j))).toList).take (n - 64 * j)) := by
  rw [xorBlock_eq]

/-- The bytes of memory after the first `k` blocks of a payload. -/
theorem read_xorBlocks (ctr : Word) (n : Nat) (s : State) (h : Memory.wf s.mem) (k : Nat) :
    Memory.wf ((List.range k).foldl (xorBlock ctr n) s).mem ∧
    ∀ x, Memory.read ((List.range k).foldl (xorBlock ctr n) s).mem x =
      if dataBase ≤ x ∧ x < dataBase + min n (64 * k) then
        Memory.read s.mem x ^^^ keystreamByte s.key s.nonce ctr (x - dataBase)
      else Memory.read s.mem x := by
  induction k with
  | zero => exact ⟨h, fun x => by rw [if_neg (by omega)]; rfl⟩
  | succ k ih =>
    obtain ⟨hw, hr⟩ := ih
    obtain ⟨hk, hn⟩ := xorBlocks_key ctr n s k
    rw [List.range_succ, List.foldl_append, List.foldl_cons, List.foldl_nil, xorBlock_mem, hk, hn]
    refine ⟨Memory.xorBytes_wf hw _, fun x => ?_⟩
    rw [Memory.read_xorBytes hw, hr]
    simp only [List.length_take, wordsLe_length, Vector.length_toList]
    by_cases h1 : dataBase + 64 * k ≤ x ∧ x < dataBase + 64 * k + min (n - 64 * k) (4 * 16)
    · rw [dif_pos h1, if_neg (by omega), if_pos (by omega)]
      congr 1
      obtain ⟨d, rfl⟩ : ∃ d, x = dataBase + 64 * k + d := ⟨x - (dataBase + 64 * k), by omega⟩
      have hd : d < 64 := by omega
      have e1 : dataBase + 64 * k + d - dataBase = 64 * k + d := by omega
      have e2 : dataBase + 64 * k + d - (dataBase + 64 * k) = d := by omega
      have e3 : (64 * k + d) / 64 = k := by omega
      have e4 : (64 * k + d) % 64 = d := by omega
      have hlen : (wordsLe (blockWords s.key s.nonce (BitVec.ofNat 32 (ctr.toNat + k))).toList).length = 64 := by
        simp
      unfold keystreamByte
      rw [e1, e3, e4, List.getElem_take]
      simp only [e2]
      rw [List.getD_eq_getElem?_getD, List.getElem?_eq_getElem (by rw [hlen]; exact hd)]
      rfl
    · rw [dif_neg h1]
      by_cases h2 : dataBase ≤ x ∧ x < dataBase + min n (64 * k)
      · rw [if_pos h2, if_pos (by omega)]
      · rw [if_neg h2, if_neg (by omega)]

theorem streamFrom_wf (ctr : Word) (n : Nat) {s : State} (h : Memory.wf s.mem) :
    Memory.wf (streamFrom ctr n s).mem := (read_xorBlocks ctr n s h (nblocks n)).1

/-- The bytes of memory after a payload: `DATA[0..n)` exclusive-ored with the keystream, every other byte unchanged. -/
theorem read_streamFrom (ctr : Word) (n : Nat) {s : State} (h : Memory.wf s.mem) (x : Nat) :
    Memory.read (streamFrom ctr n s).mem x =
      if dataBase ≤ x ∧ x < dataBase + n then
        Memory.read s.mem x ^^^ keystreamByte s.key s.nonce ctr (x - dataBase)
      else Memory.read s.mem x := by
  have hn := le_nblocks n
  have := (read_xorBlocks ctr n s h (nblocks n)).2 x
  rwa [show min n (64 * nblocks n) = n by omega] at this

theorem xorBlocks_within {p : Nat → Bool} (ctr : Word) (n : Nat) (s : State) (h : Memory.within p s.mem)
    (hp : ∀ k, k < n → p (dataBase + k) = true) (k : Nat) :
    Memory.within p ((List.range k).foldl (xorBlock ctr n) s).mem := by
  induction k with
  | zero => exact h
  | succ k ih =>
    rw [List.range_succ, List.foldl_append, List.foldl_cons, List.foldl_nil, xorBlock_mem]
    refine Memory.xorBytes_within ih fun j hj => ?_
    simp only [List.length_take, wordsLe_length, Vector.length_toList] at hj
    rw [Nat.add_assoc]
    exact hp _ (by omega)

theorem streamFrom_within {p : Nat → Bool} (ctr : Word) (n : Nat) {s : State} (h : Memory.within p s.mem)
    (hp : ∀ k, k < n → p (dataBase + k) = true) : Memory.within p (streamFrom ctr n s).mem :=
  xorBlocks_within ctr n s h hp _

end Sys2Proof.Machine
end

