-- ==== Sys2Proof/Laws/Poly1305.lean ====
section
/-!
SUPPORT. The Poly1305 accumulator stays reduced and `R` stays clamped (42_poly1305.md R98, R99, R102).
-/

namespace Sys2Proof.Machine

theorem polyP_pos : 0 < polyP := by decide

theorem absorb_lt (r acc : Nat) (m : List Byte) : absorb r acc m < polyP := Nat.mod_lt _ polyP_pos

theorem macOver_lt {r acc : Nat} (h : acc < polyP) (m : List Byte) : macOver r acc m < polyP := by
  unfold macOver
  generalize (m.length + 15) / 16 = k
  induction k with
  | zero => simpa using h
  | succ k ih => rw [List.range_succ, List.foldl_append]; exact absorb_lt _ _ _

@[simp] theorem macOver_nil (r acc : Nat) : macOver r acc [] = acc := rfl

theorem tagWords_toList (acc : Nat) (polyS : Vector Word 4) :
    (tagWords acc polyS).toList = [wordOf (acc + intOf polyS.toList) 0, wordOf (acc + intOf polyS.toList) 1,
      wordOf (acc + intOf polyS.toList) 2, wordOf (acc + intOf polyS.toList) 3] := rfl

/-- The tag as an integer: `(ACC + int(S)) mod 2^128` (R101). -/
theorem intOf_tagWords (acc : Nat) (polyS : Vector Word 4) :
    intOf (tagWords acc polyS).toList = (acc + intOf polyS.toList) % 2 ^ 128 := by
  rw [tagWords_toList, intOf_words4]

end Sys2Proof.Machine
end

