-- ==== Sys2Proof/Laws/Aead.lean ====
section
/-!
SUPPORT. The stages of the AEAD sequencer, each said once as one record update, and that the constant-time comparison
decides equality of the tags (43_aead.md R111).
-/

namespace Sys2Proof.Machine

theorem keyDerive_eq (s : State) :
    keyDerive s = { s with
      seq := .keyDerive
      init := initialState s.key s.nonce 0
      w := blockWords s.key s.nonce 0
      ks := blockWords s.key s.nonce 0
      pkey := oneTimeKey s.key s.nonce
      polyR := clampWords (oneTimeKey s.key s.nonce)
      polyS := splitS (oneTimeKey s.key s.nonce)
      acc := 0 } := by
  simp only [keyDerive, doBlock_eq, polyInit, oneTimeKey]

theorem tagCompute_eq (s : State) :
    tagCompute s = { s with
      acc := macOver (intOf s.polyR.toList) s.acc (macData s)
      tag := tagWords (macOver (intOf s.polyR.toList) s.acc (macData s)) s.polyS } := by
  simp only [tagCompute, finalize, absorbMessage]

theorem macData_length (s : State) : (macData s).length % 16 = 0 := by
  simp only [macData, aadBytes, dataBytes, List.length_append, Memory.readBytes_length, zeros_length, leBytes_length,
    pad16]
  omega

/-- `MACDATA` is a function of the lengths and of the bytes below them. -/
theorem macData_congr {s t : State} (ha : s.aadLen = t.aadLen) (hd : s.dataLen = t.dataLen)
    (h1 : ∀ k, k < s.aadLen.toNat → Memory.read s.mem (aadBase + k) = Memory.read t.mem (aadBase + k))
    (h2 : ∀ k, k < s.dataLen.toNat → Memory.read s.mem (dataBase + k) = Memory.read t.mem (dataBase + k)) :
    macData s = macData t := by
  simp only [macData, aadBytes, dataBytes, ← ha, ← hd, Memory.readBytes_congr h1, Memory.readBytes_congr h2]

theorem byte_or_eq_zero {a b : Byte} : a ||| b = 0#8 ↔ a = 0#8 ∧ b = 0#8 := by
  constructor
  · intro h
    have key : ∀ i, i < 8 → a.getLsbD i = false ∧ b.getLsbD i = false := by
      intro i _
      have := congrArg (fun x => x.getLsbD i) h
      simpa [BitVec.getLsbD_or] using this
    constructor
    · apply BitVec.eq_of_getLsbD_eq; intro i hi; simp [(key i hi).1]
    · apply BitVec.eq_of_getLsbD_eq; intro i hi; simp [(key i hi).2]
  · rintro ⟨rfl, rfl⟩; rfl

theorem tagDiff_eq_zero : ∀ {t t' : List Byte}, t.length = t'.length → (tagDiff t t' = 0#8 ↔ t = t') := by
  have key : ∀ (t t' : List Byte) (d : Byte), t.length = t'.length →
      ((List.zipWith (· ^^^ ·) t t').foldl (· ||| ·) d = 0#8 ↔ d = 0#8 ∧ t = t') := by
    intro t
    induction t with
    | nil =>
      intro t' d h
      obtain rfl : t' = [] := by cases t' <;> simp_all
      simp
    | cons a t ih =>
      intro t' d h
      cases t' with
      | nil => simp at h
      | cons b t' =>
        simp only [List.zipWith_cons_cons, List.foldl_cons]
        rw [ih t' _ (by simpa using h), byte_or_eq_zero, List.cons.injEq]
        have : a ^^^ b = 0#8 ↔ a = b := BitVec.xor_eq_zero_iff
        rw [this]
        tauto
  intro t t' h
  rw [tagDiff]
  refine (key t t' 0#8 h).trans ?_
  simp

/-- The constant-time comparison finds the tags equal exactly when they are. -/
theorem tagsEqual_iff (s : State) : tagsEqual s = true ↔ s.tag = s.tagIn := by
  rw [tagsEqual, beq_iff_eq]
  refine (tagDiff_eq_zero (by simp)).trans ⟨fun h => ?_, fun h => by rw [h]⟩
  exact Vector.toList_inj.1 (wordsLe_inj (by simp) h)

theorem payload_eq (s : State) :
    payload s = { s with
      init := initialState s.key s.nonce (BitVec.ofNat 32 (nblocks s.dataLen.toNat))
      w := blockWords s.key s.nonce (BitVec.ofNat 32 (nblocks s.dataLen.toNat))
      ks := blockWords s.key s.nonce (BitVec.ofNat 32 (nblocks s.dataLen.toNat))
      mem := (payload s).mem } := by
  have h := streamFrom_eq 1 s.dataLen.toNat s
  have e : (1 : Word).toNat + (nblocks s.dataLen.toNat - 1) = nblocks s.dataLen.toNat := by
    have := one_le_nblocks s.dataLen.toNat
    have e1 : (1 : Word).toNat = 1 := rfl
    omega
  rw [e] at h
  exact h

end Sys2Proof.Machine
end

