-- ==== Sys2Proof/Laws/Permutation.lean ====
section
/-!
SUPPORT. The slots of the working state: what a slot reads after an assignment, and that the slots are all of `W`.
-/

namespace Sys2Proof.Machine

theorem getSlot_setSlot (w : Vector Word 16) (i j : Slot) (v : Word) :
    getSlot (setSlot w i v) j = if i = j then v else getSlot w j := by
  simp only [getSlot, setSlot, Vector.getElem_set, BitVec.toNat_inj]

@[simp] theorem getSlot_setSlot_same (w : Vector Word 16) (i : Slot) (v : Word) :
    getSlot (setSlot w i v) i = v := by rw [getSlot_setSlot, if_pos rfl]

theorem getSlot_setSlot_other (w : Vector Word 16) {i j : Slot} (v : Word) (h : i ≠ j) :
    getSlot (setSlot w i v) j = getSlot w j := by rw [getSlot_setSlot, if_neg h]

/-- Two working states with the same slots are equal. -/
theorem slots_ext {w w' : Vector Word 16} (h : ∀ i : Slot, getSlot w i = getSlot w' i) : w = w' := by
  apply Vector.ext
  intro i hi
  have := h (BitVec.ofNat 4 i)
  simpa [getSlot, Nat.mod_eq_of_lt hi] using this

/-- A step of the quarter round changes only its first and third slot. -/
theorem quarterStep_other (x y z i : Slot) (n : Nat) (w : Vector Word 16) (hx : x ≠ i) (hz : z ≠ i) :
    getSlot (quarterStep x y z n w) i = getSlot w i := by
  simp only [quarterStep, getSlot_setSlot, if_neg hx, if_neg hz]

/-- A quarter round changes only its four slots. -/
theorem quarterRound_other (a b c d i : Slot) (w : Vector Word 16)
    (ha : a ≠ i) (hb : b ≠ i) (hc : c ≠ i) (hd : d ≠ i) :
    getSlot (quarterRound a b c d w) i = getSlot w i := by
  simp only [quarterRound, quarterStep_other _ _ _ i _ _ ha hd, quarterStep_other _ _ _ i _ _ hc hb]

theorem rotl32_eq (x : Word) (n : Nat) (h : n < 32) : rotl32 x n = x.rotateLeft n := by
  rw [rotl32, BitVec.rotateLeft_def, Nat.mod_eq_of_lt h]

theorem getSlot_setSlot_update (w : Vector Word 16) (i : Slot) (v : Word) :
    getSlot (setSlot w i v) = Function.update (getSlot w) i v := by
  funext j
  rw [getSlot_setSlot, Function.update_apply]
  simp only [eq_comm]

/-- The quarter round of four distinct slots, in closed form on their words. -/
theorem quarterRound_distinct (a b c d : Slot) (w : Vector Word 16) (hab : a ≠ b) (hac : a ≠ c) (had : a ≠ d)
    (hbc : b ≠ c) (hbd : b ≠ d) (hcd : c ≠ d) :
    (getSlot (quarterRound a b c d w) a, getSlot (quarterRound a b c d w) b,
        getSlot (quarterRound a b c d w) c, getSlot (quarterRound a b c d w) d) =
      quarterWords (getSlot w a) (getSlot w b) (getSlot w c) (getSlot w d) := by
  simp only [quarterRound, quarterStep, quarterWords, add32, xor32]
  rw [rotl32_eq _ 16 (by decide), rotl32_eq _ 12 (by decide), rotl32_eq _ 8 (by decide), rotl32_eq _ 7 (by decide)]
  simp [getSlot_setSlot, hab, hac, had, hbc, hbd, hcd, hab.symm, hac.symm, had.symm, hbc.symm, hbd.symm, hcd.symm]

theorem doubleRounds_succ (n : Nat) (w : Vector Word 16) : doubleRounds (n + 1) w = doubleRounds n (doubleRound w) :=
  rfl

end Sys2Proof.Machine
end

