-- ==== Sys2Proof/Laws/State.lean ====
section
/-!
SUPPORT. What each field is after the three ways a command's status changes: its completion, its refusal, its start.
Every lemma is true by unfolding one record update, so that no later proof unfolds one.
-/

namespace Sys2Proof.Machine

@[simp] theorem complete_aadCap (s : State) : (complete s).aadCap = s.aadCap := rfl
@[simp] theorem complete_dataCap (s : State) : (complete s).dataCap = s.dataCap := rfl
@[simp] theorem complete_pending (s : State) : (complete s).pending = none := rfl
@[simp] theorem complete_done (s : State) : (complete s).done = true := rfl
@[simp] theorem complete_err (s : State) : (complete s).err = s.err := rfl
@[simp] theorem complete_authFail (s : State) : (complete s).authFail = s.authFail := rfl
@[simp] theorem complete_authOk (s : State) : (complete s).authOk = s.authOk := rfl
@[simp] theorem complete_ovr (s : State) : (complete s).ovr = s.ovr := rfl
@[simp] theorem complete_seq (s : State) : (complete s).seq = s.seq := rfl
@[simp] theorem complete_errCode (s : State) : (complete s).errCode = s.errCode := rfl
@[simp] theorem complete_key (s : State) : (complete s).key = s.key := rfl
@[simp] theorem complete_nonce (s : State) : (complete s).nonce = s.nonce := rfl
@[simp] theorem complete_counter (s : State) : (complete s).counter = s.counter := rfl
@[simp] theorem complete_w (s : State) : (complete s).w = s.w := rfl
@[simp] theorem complete_init (s : State) : (complete s).init = s.init := rfl
@[simp] theorem complete_ks (s : State) : (complete s).ks = s.ks := rfl
@[simp] theorem complete_pkey (s : State) : (complete s).pkey = s.pkey := rfl
@[simp] theorem complete_polyR (s : State) : (complete s).polyR = s.polyR := rfl
@[simp] theorem complete_polyS (s : State) : (complete s).polyS = s.polyS := rfl
@[simp] theorem complete_acc (s : State) : (complete s).acc = s.acc := rfl
@[simp] theorem complete_chunk (s : State) : (complete s).chunk = s.chunk := rfl
@[simp] theorem complete_tag (s : State) : (complete s).tag = s.tag := rfl
@[simp] theorem complete_tagIn (s : State) : (complete s).tagIn = s.tagIn := rfl
@[simp] theorem complete_aadLen (s : State) : (complete s).aadLen = s.aadLen := rfl
@[simp] theorem complete_dataLen (s : State) : (complete s).dataLen = s.dataLen := rfl
@[simp] theorem complete_mem (s : State) : (complete s).mem = s.mem := rfl
@[simp] theorem complete_response (s : State) : (complete s).response = s.response := rfl
@[simp] theorem complete_program (s : State) : (complete s).program = s.program := rfl
@[simp] theorem complete_hostPc (s : State) : (complete s).hostPc = s.hostPc := rfl
@[simp] theorem complete_temps (s : State) : (complete s).temps = s.temps := rfl
@[simp] theorem complete_expectFailed (s : State) : (complete s).expectFailed = s.expectFailed := rfl
@[simp] theorem complete_turns (s : State) : (complete s).turns = s.turns := rfl

@[simp] theorem refuse_aadCap (code : ErrCode) (s : State) : (refuse code s).aadCap = s.aadCap := rfl
@[simp] theorem refuse_dataCap (code : ErrCode) (s : State) : (refuse code s).dataCap = s.dataCap := rfl
@[simp] theorem refuse_pending (code : ErrCode) (s : State) : (refuse code s).pending = none := rfl
@[simp] theorem refuse_done (code : ErrCode) (s : State) : (refuse code s).done = false := rfl
@[simp] theorem refuse_err (code : ErrCode) (s : State) : (refuse code s).err = true := rfl
@[simp] theorem refuse_authFail (code : ErrCode) (s : State) : (refuse code s).authFail = false := rfl
@[simp] theorem refuse_authOk (code : ErrCode) (s : State) : (refuse code s).authOk = false := rfl
@[simp] theorem refuse_ovr (code : ErrCode) (s : State) : (refuse code s).ovr = s.ovr := rfl
@[simp] theorem refuse_seq (code : ErrCode) (s : State) : (refuse code s).seq = s.seq := rfl
@[simp] theorem refuse_errCode (code : ErrCode) (s : State) : (refuse code s).errCode = code := rfl
@[simp] theorem refuse_key (code : ErrCode) (s : State) : (refuse code s).key = s.key := rfl
@[simp] theorem refuse_nonce (code : ErrCode) (s : State) : (refuse code s).nonce = s.nonce := rfl
@[simp] theorem refuse_counter (code : ErrCode) (s : State) : (refuse code s).counter = s.counter := rfl
@[simp] theorem refuse_w (code : ErrCode) (s : State) : (refuse code s).w = s.w := rfl
@[simp] theorem refuse_init (code : ErrCode) (s : State) : (refuse code s).init = s.init := rfl
@[simp] theorem refuse_ks (code : ErrCode) (s : State) : (refuse code s).ks = s.ks := rfl
@[simp] theorem refuse_pkey (code : ErrCode) (s : State) : (refuse code s).pkey = s.pkey := rfl
@[simp] theorem refuse_polyR (code : ErrCode) (s : State) : (refuse code s).polyR = s.polyR := rfl
@[simp] theorem refuse_polyS (code : ErrCode) (s : State) : (refuse code s).polyS = s.polyS := rfl
@[simp] theorem refuse_acc (code : ErrCode) (s : State) : (refuse code s).acc = s.acc := rfl
@[simp] theorem refuse_chunk (code : ErrCode) (s : State) : (refuse code s).chunk = s.chunk := rfl
@[simp] theorem refuse_tag (code : ErrCode) (s : State) : (refuse code s).tag = s.tag := rfl
@[simp] theorem refuse_tagIn (code : ErrCode) (s : State) : (refuse code s).tagIn = s.tagIn := rfl
@[simp] theorem refuse_aadLen (code : ErrCode) (s : State) : (refuse code s).aadLen = s.aadLen := rfl
@[simp] theorem refuse_dataLen (code : ErrCode) (s : State) : (refuse code s).dataLen = s.dataLen := rfl
@[simp] theorem refuse_mem (code : ErrCode) (s : State) : (refuse code s).mem = s.mem := rfl
@[simp] theorem refuse_response (code : ErrCode) (s : State) : (refuse code s).response = s.response := rfl
@[simp] theorem refuse_program (code : ErrCode) (s : State) : (refuse code s).program = s.program := rfl
@[simp] theorem refuse_hostPc (code : ErrCode) (s : State) : (refuse code s).hostPc = s.hostPc := rfl
@[simp] theorem refuse_temps (code : ErrCode) (s : State) : (refuse code s).temps = s.temps := rfl
@[simp] theorem refuse_expectFailed (code : ErrCode) (s : State) : (refuse code s).expectFailed = s.expectFailed := rfl
@[simp] theorem refuse_turns (code : ErrCode) (s : State) : (refuse code s).turns = s.turns := rfl

@[simp] theorem start_aadCap (cmd : Word) (s : State) : (start cmd s).aadCap = s.aadCap := rfl
@[simp] theorem start_dataCap (cmd : Word) (s : State) : (start cmd s).dataCap = s.dataCap := rfl
@[simp] theorem start_pending (cmd : Word) (s : State) : (start cmd s).pending = some cmd := rfl
@[simp] theorem start_done (cmd : Word) (s : State) : (start cmd s).done = false := rfl
@[simp] theorem start_err (cmd : Word) (s : State) : (start cmd s).err = false := rfl
@[simp] theorem start_authFail (cmd : Word) (s : State) : (start cmd s).authFail = false := rfl
@[simp] theorem start_authOk (cmd : Word) (s : State) : (start cmd s).authOk = false := rfl
@[simp] theorem start_ovr (cmd : Word) (s : State) : (start cmd s).ovr = s.ovr := rfl
@[simp] theorem start_seq (cmd : Word) (s : State) : (start cmd s).seq = s.seq := rfl
@[simp] theorem start_errCode (cmd : Word) (s : State) : (start cmd s).errCode = .noError := rfl
@[simp] theorem start_key (cmd : Word) (s : State) : (start cmd s).key = s.key := rfl
@[simp] theorem start_nonce (cmd : Word) (s : State) : (start cmd s).nonce = s.nonce := rfl
@[simp] theorem start_counter (cmd : Word) (s : State) : (start cmd s).counter = s.counter := rfl
@[simp] theorem start_w (cmd : Word) (s : State) : (start cmd s).w = s.w := rfl
@[simp] theorem start_init (cmd : Word) (s : State) : (start cmd s).init = s.init := rfl
@[simp] theorem start_ks (cmd : Word) (s : State) : (start cmd s).ks = s.ks := rfl
@[simp] theorem start_pkey (cmd : Word) (s : State) : (start cmd s).pkey = s.pkey := rfl
@[simp] theorem start_polyR (cmd : Word) (s : State) : (start cmd s).polyR = s.polyR := rfl
@[simp] theorem start_polyS (cmd : Word) (s : State) : (start cmd s).polyS = s.polyS := rfl
@[simp] theorem start_acc (cmd : Word) (s : State) : (start cmd s).acc = s.acc := rfl
@[simp] theorem start_chunk (cmd : Word) (s : State) : (start cmd s).chunk = s.chunk := rfl
@[simp] theorem start_tag (cmd : Word) (s : State) : (start cmd s).tag = s.tag := rfl
@[simp] theorem start_tagIn (cmd : Word) (s : State) : (start cmd s).tagIn = s.tagIn := rfl
@[simp] theorem start_aadLen (cmd : Word) (s : State) : (start cmd s).aadLen = s.aadLen := rfl
@[simp] theorem start_dataLen (cmd : Word) (s : State) : (start cmd s).dataLen = s.dataLen := rfl
@[simp] theorem start_mem (cmd : Word) (s : State) : (start cmd s).mem = s.mem := rfl
@[simp] theorem start_response (cmd : Word) (s : State) : (start cmd s).response = s.response := rfl
@[simp] theorem start_program (cmd : Word) (s : State) : (start cmd s).program = s.program := rfl
@[simp] theorem start_hostPc (cmd : Word) (s : State) : (start cmd s).hostPc = s.hostPc := rfl
@[simp] theorem start_temps (cmd : Word) (s : State) : (start cmd s).temps = s.temps := rfl
@[simp] theorem start_expectFailed (cmd : Word) (s : State) : (start cmd s).expectFailed = s.expectFailed := rfl
@[simp] theorem start_turns (cmd : Word) (s : State) : (start cmd s).turns = s.turns := rfl

@[simp] theorem complete_busy (s : State) : (complete s).busy = false := rfl
@[simp] theorem refuse_busy (code : ErrCode) (s : State) : (refuse code s).busy = false := rfl
@[simp] theorem start_busy (cmd : Word) (s : State) : (start cmd s).busy = true := rfl

end Sys2Proof.Machine
end

