-- ==== Sys2Proof/Laws/Exec.lean ====
section
/-!
SUPPORT. What the engine's step can do, said once: `exec_eq` gives every command as its rule followed by completion, or
the refusal its checks call for. Proofs over all commands cite it and go on by cases on the rule.
-/

namespace Sys2Proof.Machine

theorem checkInstr_eq_noError {i : Instr} {s : State} :
    checkInstr i s = .noError ↔ WellFormed i = true ∧ lengthsFit i s = true ∧ counterFits i s = true := by
  unfold checkInstr
  cases WellFormed i <;> cases lengthsFit i s <;> cases counterFits i s <;> simp

/-- A command started by its acceptance. -/
theorem accept_of_noError {cmd : Word} {s : State} (h : check cmd s = .noError) : accept cmd s = start cmd s := by
  rw [accept, h]

/-- A command refused by its acceptance, with the code of its first failing check. -/
theorem accept_of_error {cmd : Word} {s : State} (h : check cmd s ≠ .noError) :
    accept cmd s = refuse (check cmd s) s := by
  rw [accept]
  split <;> simp_all

theorem perform_of_noError {i : Instr} {s : State} (rule : State → State) (h : checkInstr i s = .noError) :
    perform i rule s = .next (complete (rule s)) := by
  rw [perform, h]

theorem perform_of_error {i : Instr} {s : State} (rule : State → State) (h : checkInstr i s ≠ .noError) :
    perform i rule s = .next (refuse (checkInstr i s) s) := by
  rw [perform]
  split <;> simp_all

/-- The rule of each command, without its completion. -/
def commandRule : Instr → State → State
  | .nop, s => s
  | .qr a b c d, s => { s with w := quarterRound a b c d s.w }
  | .colround, s => { s with w := columnRound s.w }
  | .diaground, s => { s with w := diagonalRound s.w }
  | .doubleround, s => { s with w := doubleRound s.w }
  | .permute, s => { s with w := permutation s.w }
  | .loadstate, s => loadState s.counter s
  | .addback, s => addBack s
  | .serialize, s => serializeState s
  | .block, s => doBlock s.counter s
  | .streamXor, s => streamFrom s.counter s.dataLen.toNat s
  | .polyInit, s => polyInit s
  | .polyAbsorb len, s => absorbChunk (chunkBytes len s) s
  | .polyFinal, s => finalize s
  | .polyMac, s => finalize (absorbMessage (dataBytes s) (polyInit s))
  | .aeadEnc, s => aeadEncrypt s
  | .aeadDec, s => aeadDecrypt s
  | .clear, s => clearAll s

/-- The engine's step for any command: its rule and its completion, or the refusal its checks call for. -/
theorem exec_eq (i : Instr) (s : State) :
    exec i s = if checkInstr i s = .noError then .next (complete (commandRule i s))
      else .next (refuse (checkInstr i s) s) := by
  by_cases h : checkInstr i s = .noError
  · rw [if_pos h]
    cases i with
    | nop => simp only [exec, execNop, commandRule]
    | qr a b c d => simp only [exec, execQr, commandRule]
    | colround => simp only [exec, execColround, commandRule]
    | diaground => simp only [exec, execDiaground, commandRule]
    | doubleround => simp only [exec, execDoubleround, commandRule]
    | permute => simp only [exec, execPermute, commandRule]
    | loadstate => simp only [exec, execLoadstate, commandRule]
    | addback => simp only [exec, execAddback, commandRule]
    | serialize => simp only [exec, execSerialize, commandRule]
    | block => simp only [exec, execBlock, commandRule]
    | polyInit => simp only [exec, execPolyInit, commandRule]
    | polyFinal => simp only [exec, execPolyFinal, commandRule]
    | clear => simp only [exec, execClear, commandRule]
    | streamXor => simp only [exec, execStreamXor, perform_of_noError _ h, commandRule]
    | polyAbsorb len => simp only [exec, execPolyAbsorb, perform_of_noError _ h, commandRule]
    | polyMac => simp only [exec, execPolyMac, perform_of_noError _ h, commandRule]
    | aeadEnc => simp only [exec, execAeadEnc, perform_of_noError _ h, commandRule]
    | aeadDec => simp only [exec, execAeadDec, perform_of_noError _ h, commandRule]
  · rw [if_neg h]
    cases i with
    | nop => exact absurd (checkInstr_eq_noError.2 ⟨rfl, rfl, rfl⟩) h
    | qr a b c d => exact absurd (checkInstr_eq_noError.2 ⟨rfl, rfl, rfl⟩) h
    | colround => exact absurd (checkInstr_eq_noError.2 ⟨rfl, rfl, rfl⟩) h
    | diaground => exact absurd (checkInstr_eq_noError.2 ⟨rfl, rfl, rfl⟩) h
    | doubleround => exact absurd (checkInstr_eq_noError.2 ⟨rfl, rfl, rfl⟩) h
    | permute => exact absurd (checkInstr_eq_noError.2 ⟨rfl, rfl, rfl⟩) h
    | loadstate => exact absurd (checkInstr_eq_noError.2 ⟨rfl, rfl, rfl⟩) h
    | addback => exact absurd (checkInstr_eq_noError.2 ⟨rfl, rfl, rfl⟩) h
    | serialize => exact absurd (checkInstr_eq_noError.2 ⟨rfl, rfl, rfl⟩) h
    | block => exact absurd (checkInstr_eq_noError.2 ⟨rfl, rfl, rfl⟩) h
    | polyInit => exact absurd (checkInstr_eq_noError.2 ⟨rfl, rfl, rfl⟩) h
    | polyFinal => exact absurd (checkInstr_eq_noError.2 ⟨rfl, rfl, rfl⟩) h
    | clear => exact absurd (checkInstr_eq_noError.2 ⟨rfl, rfl, rfl⟩) h
    | streamXor => simp only [exec, execStreamXor, perform_of_error _ h]
    | polyAbsorb len => simp only [exec, execPolyAbsorb, perform_of_error _ h]
    | polyMac => simp only [exec, execPolyMac, perform_of_error _ h]
    | aeadEnc => simp only [exec, execAeadEnc, perform_of_error _ h]
    | aeadDec => simp only [exec, execAeadDec, perform_of_error _ h]

theorem exec_of_noError {i : Instr} {s : State} (h : checkInstr i s = .noError) :
    exec i s = .next (complete (commandRule i s)) := by rw [exec_eq, if_pos h]

/-- The rule of `POLY_MAC` as one record update (R106). -/
theorem polyMac_eq (s : State) :
    finalize (absorbMessage (dataBytes s) (polyInit s)) = { s with
      polyR := clampWords s.pkey
      polyS := splitS s.pkey
      acc := macOver (intOf (clampWords s.pkey).toList) 0 (dataBytes s)
      tag := tagWords (macOver (intOf (clampWords s.pkey).toList) 0 (dataBytes s)) (splitS s.pkey) } := by
  simp only [finalize, absorbMessage, polyInit]

/-- The state between `KEYDERIVE` and the payload or the verdict keeps everything the payload and the tag read. -/
theorem encryptStage_mem (s : State) : (encryptStage s).mem = (payload { s with seq := .encrypt }).mem := by
  simp only [encryptStage, tagCompute_eq]

theorem payload_mem (s : State) : (payload s).mem = (streamFrom 1 s.dataLen.toNat s).mem := rfl

/-- The bytes of memory after a payload. -/
theorem read_payload {s : State} (h : Memory.wf s.mem) (x : Nat) :
    Memory.read (payload s).mem x =
      if dataBase ≤ x ∧ x < dataBase + s.dataLen.toNat then
        Memory.read s.mem x ^^^ keystreamByte s.key s.nonce 1 (x - dataBase)
      else Memory.read s.mem x := by
  rw [payload_mem, read_streamFrom 1 _ h]

theorem xorBlocks_mem_congr (ctr : Word) (n : Nat) {s u : State} (hk : s.key = u.key) (hn : s.nonce = u.nonce)
    (hm : s.mem = u.mem) (k : Nat) :
    ((List.range k).foldl (xorBlock ctr n) s).mem = ((List.range k).foldl (xorBlock ctr n) u).mem := by
  induction k with
  | zero => exact hm
  | succ k ih =>
    obtain ⟨a1, a2⟩ := xorBlocks_key ctr n s k
    obtain ⟨b1, b2⟩ := xorBlocks_key ctr n u k
    simp only [List.range_succ, List.foldl_append, List.foldl_cons, List.foldl_nil, xorBlock_mem, ih, a1, a2, b1, b2, hk, hn]

/-- The memory a payload leaves is a function of the key, the nonce, the length and the memory before. -/
theorem payload_mem_congr {s u : State} (hk : s.key = u.key) (hn : s.nonce = u.nonce) (hm : s.mem = u.mem)
    (hd : s.dataLen = u.dataLen) : (payload s).mem = (payload u).mem := by
  rw [payload_mem, payload_mem, hd]; exact xorBlocks_mem_congr _ _ hk hn hm _

/-- The rule of `AEAD_ENC` as one record update (R112). -/
theorem aeadEncrypt_eq (s : State) : aeadEncrypt s = { s with
   seq := .encrypt
   init := initialState s.key s.nonce (BitVec.ofNat 32 (nblocks s.dataLen.toNat))
   w := blockWords s.key s.nonce (BitVec.ofNat 32 (nblocks s.dataLen.toNat))
   ks := blockWords s.key s.nonce (BitVec.ofNat 32 (nblocks s.dataLen.toNat))
   pkey := oneTimeKey s.key s.nonce
   polyR := clampWords (oneTimeKey s.key s.nonce)
   polyS := splitS (oneTimeKey s.key s.nonce)
   acc := aeadAcc s.key s.nonce (macData { s with mem := (payload s).mem })
   tag := aeadTag s.key s.nonce (macData { s with mem := (payload s).mem })
   mem := (payload s).mem } := by
  rw [aeadEncrypt, encryptStage, keyDerive_eq, tagCompute_eq, payload_eq]
  simp only [payload_mem_congr (s := { s with
   seq := .encrypt
   init := initialState s.key s.nonce 0
   w := blockWords s.key s.nonce 0
   ks := blockWords s.key s.nonce 0
   pkey := oneTimeKey s.key s.nonce
   polyR := clampWords (oneTimeKey s.key s.nonce)
   polyS := splitS (oneTimeKey s.key s.nonce)
   acc := 0 }) (u := s) rfl rfl rfl rfl]
  simp only [aeadAcc, aeadTag, macData, aadBytes, dataBytes]

/-- The state in which the verdict is taken (R110, R113). -/
theorem verify_eq (s : State) : verifyStage (keyDerive s) = { s with
   seq := .verify
   init := initialState s.key s.nonce 0
   w := blockWords s.key s.nonce 0
   ks := blockWords s.key s.nonce 0
   pkey := oneTimeKey s.key s.nonce
   polyR := clampWords (oneTimeKey s.key s.nonce)
   polyS := splitS (oneTimeKey s.key s.nonce)
   acc := aeadAcc s.key s.nonce (macData s)
   tag := aeadTag s.key s.nonce (macData s) } := by
  rw [verifyStage, keyDerive_eq, tagCompute_eq]
  simp only [aeadAcc, aeadTag, macData, aadBytes, dataBytes]

/-- The rule of `AEAD_DEC` as one record update for each verdict (R114, R115). -/
theorem aeadDecrypt_eq (s : State) : aeadDecrypt s = if aeadTag s.key s.nonce (macData s) = s.tagIn then { s with
   seq := .decrypt
   authOk := true
   init := initialState s.key s.nonce (BitVec.ofNat 32 (nblocks s.dataLen.toNat))
   w := blockWords s.key s.nonce (BitVec.ofNat 32 (nblocks s.dataLen.toNat))
   ks := blockWords s.key s.nonce (BitVec.ofNat 32 (nblocks s.dataLen.toNat))
   pkey := oneTimeKey s.key s.nonce
   polyR := clampWords (oneTimeKey s.key s.nonce)
   polyS := splitS (oneTimeKey s.key s.nonce)
   acc := aeadAcc s.key s.nonce (macData s)
   tag := s.tagIn
   mem := (payload s).mem } else { s with
   seq := .rejected
   authFail := true
   init := initialState s.key s.nonce 0
   w := blockWords s.key s.nonce 0
   ks := blockWords s.key s.nonce 0
   pkey := oneTimeKey s.key s.nonce
   polyR := clampWords (oneTimeKey s.key s.nonce)
   polyS := splitS (oneTimeKey s.key s.nonce)
   acc := 0
   tag := #v[0, 0, 0, 0] } := by
  rw [aeadDecrypt]
  by_cases h : aeadTag s.key s.nonce (macData s) = s.tagIn
  · rw [if_pos h, if_pos (by rw [tagsEqual_iff, verify_eq]; exact h), decryptStage, verify_eq, payload_eq]
    simp only [payload_mem_congr (s := { s with
     seq := .decrypt
     init := initialState s.key s.nonce 0
     w := blockWords s.key s.nonce 0
     ks := blockWords s.key s.nonce 0
     pkey := oneTimeKey s.key s.nonce
     polyR := clampWords (oneTimeKey s.key s.nonce)
     polyS := splitS (oneTimeKey s.key s.nonce)
     acc := aeadAcc s.key s.nonce (macData s)
     tag := s.tagIn }) (u := s) rfl rfl rfl rfl, h]
  · rw [if_neg h, if_neg (by rw [tagsEqual_iff, verify_eq]; exact h), rejectStage, verify_eq]

end Sys2Proof.Machine
end

