-- ==== Sys2Proof/Laws/Host.lean ====
section
/-!
SUPPORT. The host's transactions and the order of turns: one lemma for each thing a transaction or a turn can do.
-/

namespace Sys2Proof.Machine

theorem transact_read {off n : Nat} (h : off < windowSize) (s : State) :
    transact (.read off n) s = .next (busRead off n s) := by simp only [transact, if_pos h]

theorem transact_write {off n : Nat} (h : off < windowSize) (v : Word) (s : State) :
    transact (.write off n v) s = .next (busWrite off n v s) := by simp only [transact, if_pos h]

theorem admitted_word {off : Nat} (h : off % 4 = 0) : admitted off 4 = true := by simp [admitted, h]

theorem not_admitted {off n : Nat} (h : n ≠ 4 ∨ off % 4 ≠ 0) : admitted off n = false := by
  simp only [admitted, Bool.and_eq_false_iff, beq_eq_false_iff_ne]
  exact h

theorem writeWindow_busy {s : State} (h : s.busy = true) (off : Nat) (v : Word) :
    writeWindow s off v = { s with ovr := true } := by rw [writeWindow, if_pos h]

theorem writeWindow_idle {s : State} (h : s.busy = false) (off : Nat) (v : Word) :
    writeWindow s off v = writeReg s v (regAt s.aadCap.val s.dataCap.val off) := by
  rw [writeWindow, h]; rfl

theorem readWindow_idle {s : State} (h : s.busy = false) (off : Nat) :
    readWindow s off = readReg s (regAt s.aadCap.val s.dataCap.val off) := by
  rw [readWindow, h]; rfl

/-- An idle write of a word is the one write of the register its offset names. -/
theorem transact_write_idle {s : State} (h : s.busy = false) {off : Nat} (hw : off < windowSize) (h4 : off % 4 = 0)
    (v : Word) : transact (.write off 4 v) s =
      .next { writeReg s v (regAt s.aadCap.val s.dataCap.val off) with response := .ok } := by
  rw [transact_write hw, busWrite, admitted_word h4, writeWindow_idle h]; rfl

/-- An idle read of a word is the one read of the register its offset names. -/
theorem transact_read_idle {s : State} (h : s.busy = false) {off : Nat} (hw : off < windowSize) (h4 : off % 4 = 0) :
    transact (.read off 4) s =
      .next { s with response := .value (readReg s (regAt s.aadCap.val s.dataCap.val off)) } := by
  rw [transact_read hw, busRead, admitted_word h4, readWindow_idle h]; rfl

/-- A temporary holds what was last put into it, and no other temporary changes. -/
theorem tempValue_setTemp (temps : List (Nat × Word)) (t : Nat) (v : Word) (t' : Nat) :
    tempValue (setTemp temps t v) t' = if t' = t then v else tempValue temps t' := by
  have hf : t' ≠ t → (temps.filter fun p => p.1 != t).find? (fun p => p.1 == t') = temps.find? fun p => p.1 == t' := by
    intro h
    rw [List.find?_filter]
    congr 1
    funext p
    by_cases hp : p.1 = t' <;> simp [hp, h]
  by_cases h : t' = t
  · simp [tempValue, setTemp, h]
  · rw [if_neg h, tempValue, setTemp, List.find?_cons_of_neg (by simpa using fun e => h e.symm), hf h, tempValue]

theorem nextTurn_cons {s : State} {t : Turn} {ts : List Turn} (h : s.turns = t :: ts) :
    nextTurn s = (t, { s with turns := ts }) := by rw [nextTurn, h]

theorem nextTurn_nil {s : State} (h : s.turns = []) :
    nextTurn s = (if s.busy then .engine else .host, s) := by rw [nextTurn, h]

/-- A step is one agent's turn: the first of `turns`, or the engine's if it is busy and the host's otherwise. -/
theorem step_eq (s : State) : step s = takeTurn (nextTurn s).1 (nextTurn s).2 := rfl

end Sys2Proof.Machine
end

