-- ==== Sys2Proof/Laws/PerInstr.lean ====
section
/-!
SUPPORT. One statement per command about the command as it is written: its word matches its row of the opcode map, and
the row is in the map (30_encoding.md R75).
-/

namespace Sys2Proof.Laws.RowMatch

/-- The command's word spells the command's row, and the row stands in the opcode map. -/
def Statement (i : Instr) : Prop := (rowOf i).spells (encode i) = true ∧ rowOf i ∈ opcodeTable

theorem nop : Statement .nop := by unfold Statement; decide
theorem qr (a b c d : Slot) : Statement (.qr a b c d) := by
  have hrow : (⟨0x00000001, 0xFF0000FF⟩ : OpcodeRow) ∈ opcodeTable := by decide
  refine ⟨?_, hrow⟩
  simp only [OpcodeRow.spells, rowOf, encode, beq_iff_eq]
  apply BitVec.eq_of_getLsbD_eq
  intro i hi
  interval_cases i <;> simp
theorem colround : Statement .colround := by unfold Statement; decide
theorem diaground : Statement .diaground := by unfold Statement; decide
theorem doubleround : Statement .doubleround := by unfold Statement; decide
theorem permute : Statement .permute := by unfold Statement; decide
theorem loadstate : Statement .loadstate := by unfold Statement; decide
theorem addback : Statement .addback := by unfold Statement; decide
theorem serialize : Statement .serialize := by unfold Statement; decide
theorem block : Statement .block := by unfold Statement; decide
theorem streamXor : Statement .streamXor := by unfold Statement; decide
theorem polyInit : Statement .polyInit := by unfold Statement; decide
theorem polyAbsorb (len : BitVec 5) : Statement (.polyAbsorb len) := by
  unfold Statement
  revert len
  decide
theorem polyFinal : Statement .polyFinal := by unfold Statement; decide
theorem polyMac : Statement .polyMac := by unfold Statement; decide
theorem aeadEnc : Statement .aeadEnc := by unfold Statement; decide
theorem aeadDec : Statement .aeadDec := by unfold Statement; decide
theorem clear : Statement .clear := by unfold Statement; decide

end Sys2Proof.Laws.RowMatch
end

