-- ==== Sys2Proof/Laws/Step.lean ====
section
/-!
SUPPORT. What one step of the machine can do, said once: a transaction, the host's turn, the engine's turn, a step.
Proofs about every step cite these and never unfold an agent.
-/

namespace Sys2Proof.Machine

/-- `t` is `s` but for the host's own registers. -/
def HostOnly (s t : State) : Prop :=
  ∃ r p te e, t = { s with response := r, hostPc := p, temps := te, expectFailed := e }

theorem next_inj {a b : State}
    (h : (Host.Outcome.next a : Host.Outcome State Fault Refusal) = .next b) : b = a := by
  cases h; rfl

/-- Everything a transaction the window answers can do. -/
theorem transact_cases {op : BusOp} {s t : State} (h : transact op s = .next t) :
    (∃ r, t = { s with response := r }) ∨
    (∃ off v, op = .write off 4 v ∧ off < windowSize ∧ off % 4 = 0 ∧ s.busy = true ∧
      t = { s with ovr := true, response := .ok }) ∨
    (∃ off v, op = .write off 4 v ∧ off < windowSize ∧ off % 4 = 0 ∧ s.busy = false ∧
      t = { writeReg s v (regAt s.aadCap.val s.dataCap.val off) with response := .ok }) := by
  cases op with
  | read off n =>
    simp only [transact] at h; split at h
    · cases h; exact .inl ⟨_, rfl⟩
    · cases h
  | write off n v =>
    simp only [transact] at h; split at h
    · cases h
      unfold busWrite
      split
      · rename_i hw ha
        simp only [admitted, Bool.and_eq_true, beq_iff_eq] at ha
        obtain ⟨rfl, ha⟩ := ha
        cases hb : s.busy
        · rw [writeWindow_idle hb]; exact .inr (.inr ⟨off, v, rfl, hw, ha, rfl, rfl⟩)
        · rw [writeWindow_busy hb]; exact .inr (.inl ⟨off, v, rfl, hw, ha, rfl, rfl⟩)
      · exact .inl ⟨_, rfl⟩
    · cases h

theorem afterTransact_cases {op : BusOp} {k : State → State} {s t : State} (h : afterTransact op k s = .next t) :
    ∃ u, transact op s = .next u ∧ t = k u := by
  unfold afterTransact at h
  split at h
  · cases h; exact ⟨_, ‹_›, rfl⟩
  · cases h
  · cases h

theorem storeResponse_hostOnly (s : State) (t : Nat) : HostOnly s (nextLine (storeResponse t s)) := by
  unfold storeResponse; split <;> exact ⟨_, _, _, _, rfl⟩

theorem hostOnly_trans {a b c : State} (h : HostOnly a b) (h' : HostOnly b c) : HostOnly a c := by
  obtain ⟨r, p, te, e, rfl⟩ := h; obtain ⟨r', p', te', e', rfl⟩ := h'; exact ⟨_, _, _, _, rfl⟩

/-- Everything the host's turn can do: nothing to the CORE, `OVR` set while busy, or one register write while idle. -/
theorem hostStep_cases {s t : State} (h : hostStep s = .next t) : HostOnly s t ∨
   (s.busy = true ∧ ∃ u, u = { s with ovr := true } ∧ HostOnly u t) ∨
   (s.busy = false ∧ ∃ off v, hostWrite s = some (off, 4, v) ∧ off < windowSize ∧ off % 4 = 0 ∧
      HostOnly (writeReg s v (regAt s.aadCap.val s.dataCap.val off)) t) := by
  unfold hostStep at h
  split at h
  · rename_i line hl
    cases line with
    | access op =>
      obtain ⟨u, hu, rfl⟩ := afterTransact_cases h
      rcases transact_cases hu with ⟨r, rfl⟩ | ⟨off, v, rfl, hw, ha, hb, rfl⟩ | ⟨off, v, rfl, hw, ha, hb, rfl⟩
      · exact .inl ⟨_, _, _, _, rfl⟩
      · exact .inr (.inl ⟨hb, _, rfl, _, _, _, _, rfl⟩)
      · exact .inr (.inr ⟨hb, off, v, by rw [hostWrite, hl], hw, ha, _, _, _, _, rfl⟩)
    | wr off v =>
      obtain ⟨u, hu, rfl⟩ := afterTransact_cases h
      rcases transact_cases hu with ⟨r, rfl⟩ | ⟨off', v', e, hw, ha, hb, rfl⟩ | ⟨off', v', e, hw, ha, hb, rfl⟩
      · exact .inl ⟨_, _, _, _, rfl⟩
      · exact .inr (.inl ⟨hb, _, rfl, _, _, _, _, rfl⟩)
      · cases e
        exact .inr (.inr ⟨hb, off, _, by rw [hostWrite, hl], hw, ha, _, _, _, _, rfl⟩)
    | rd off v =>
      obtain ⟨u, hu, rfl⟩ := afterTransact_cases h
      rcases transact_cases hu with ⟨r, rfl⟩ | ⟨off', v', e, hw, ha, hb, rfl⟩ | ⟨off', v', e, hw, ha, hb, rfl⟩
      · exact .inl (hostOnly_trans ⟨_, _, _, _, rfl⟩ (storeResponse_hostOnly _ _))
      · cases e
      · cases e
    | expect off v =>
      obtain ⟨u, hu, rfl⟩ := afterTransact_cases h
      rcases transact_cases hu with ⟨r, rfl⟩ | ⟨off', v', e, hw, ha, hb, rfl⟩ | ⟨off', v', e, hw, ha, hb, rfl⟩
      · exact .inl ⟨_, _, _, _, rfl⟩
      · cases e
      · cases e
    | bnz t' m l =>
      simp only [runLine] at h
      have := next_inj h
      subst this
      split <;> exact .inl ⟨_, _, _, _, rfl⟩
    | label l =>
      cases h; exact .inl ⟨_, _, _, _, rfl⟩
  · cases h; exact .inl ⟨_, _, _, _, rfl⟩

/-- Everything the engine's turn can do. -/
theorem engineStep_cases {s t : State} (h : engineStep s = .next t) : (s.pending = none ∧ t = s) ∨
   (∃ cmd e, s.pending = some cmd ∧ decode cmd = .error e ∧ t = refuse (rejectCode e) s) ∨
   (∃ cmd i, s.pending = some cmd ∧ decode cmd = .ok i ∧ checkInstr i s ≠ .noError ∧ t = refuse (checkInstr i s) s) ∨
   (∃ cmd i, s.pending = some cmd ∧ decode cmd = .ok i ∧ checkInstr i s = .noError ∧ t = complete (commandRule i s)) := by
  unfold engineStep at h
  split at h
  · cases h; exact .inl ⟨‹_›, rfl⟩
  · split at h
    · rw [exec_eq] at h
      split at h
      · cases h; exact .inr (.inr (.inr ⟨_, _, ‹_›, ‹_›, ‹_›, rfl⟩))
      · cases h; exact .inr (.inr (.inl ⟨_, _, ‹_›, ‹_›, ‹_›, rfl⟩))
    · cases h; exact .inr (.inl ⟨_, _, ‹_›, ‹_›, rfl⟩)

/-- Everything one agent's turn can do. -/
theorem takeTurn_cases {turn : Turn} {s t : State} (h : takeTurn turn s = .next t) :
    (turn = .host ∧ hostStep s = .next t) ∨ (turn = .engine ∧ engineStep s = .next t) ∨
      ∃ draw, turn = .reset draw ∧ t = resetEvent draw s := by
  cases turn with
  | host => exact .inl ⟨rfl, h⟩
  | engine => exact .inr (.inl ⟨rfl, h⟩)
  | reset draw => exact .inr (.inr ⟨draw, rfl, next_inj h⟩)

theorem nextTurn_cases (s : State) : ∃ ts, (nextTurn s).2 = { s with turns := ts } := by
  unfold nextTurn; split <;> exact ⟨_, rfl⟩

/-- Everything a step can do: one turn of one agent, in a state that differs from the step's only in `turns`. -/
theorem step_cases {s t : State} (h : step s = .next t) : ∃ ts s', s' = { s with turns := ts } ∧ (nextTurn s).2 = s' ∧
   (((nextTurn s).1 = .host ∧ hostStep s' = .next t) ∨ ((nextTurn s).1 = .engine ∧ engineStep s' = .next t) ∨
    ∃ draw, (nextTurn s).1 = .reset draw ∧ t = resetEvent draw s') := by
  obtain ⟨ts, hts⟩ := nextTurn_cases s
  refine ⟨ts, _, rfl, hts, ?_⟩
  rw [step_eq, hts] at h
  cases hn : (nextTurn s).1 with
  | host => rw [hn] at h; exact .inl ⟨rfl, h⟩
  | engine => rw [hn] at h; exact .inr (.inl ⟨rfl, h⟩)
  | reset d => rw [hn] at h; exact .inr (.inr ⟨d, rfl, next_inj h⟩)

end Sys2Proof.Machine
end

