-- ==== Sys2Proof/Laws/Window.lean ====
section
/-!
SUPPORT. The register window: which register an offset names (10_state.md section 2), the bits of `STATUS` (R25), and the
words of the buffers as lanes of bytes (20_memory.md R54).
-/

namespace Sys2Proof.Machine

theorem reg_ite {P : Reg → Prop} {c : Prop} [Decidable c] {a b : Reg} (h1 : c → P a) (h2 : ¬ c → P b) :
    P (if c then a else b) := by
  by_cases h : c
  · rw [if_pos h]; exact h1 h
  · rw [if_neg h]; exact h2 h

theorem reg_dite {P : Reg → Prop} {c : Prop} [Decidable c] {a : c → Reg} {b : ¬ c → Reg}
    (h1 : ∀ h : c, P (a h)) (h2 : ∀ h : ¬ c, P (b h)) : P (if h : c then a h else b h) := by
  by_cases h : c
  · rw [dif_pos h]; exact h1 h
  · rw [dif_neg h]; exact h2 h

theorem inBuffer_iff (a d x : Nat) :
    inBuffer a d x = true ↔ (0x1000 ≤ x ∧ x < 0x1000 + a) ∨ (0x2000 ≤ x ∧ x < 0x2000 + d) := by
  unfold inBuffer
  simp only [Bool.or_eq_true, Bool.and_eq_true, decide_eq_true_iff]

/-- What an aligned offset names, place by place: one premise for each row of the window. -/
theorem regAt_cases (P : Reg → Prop) (a d off : Nat) (h4' : off % 4 = 0)
  (h0 : off = 0 → P .id) (h4 : off = 4 → P .status) (h8 : off = 8 → P .cmd)
  (hkey : ∀ i, 0x010 ≤ off ∧ off < 0x030 → P (.key i)) (hnonce : ∀ i, 0x030 ≤ off ∧ off < 0x03C → P (.nonce i))
  (hctr : off = 0x03C → P .counter) (hw : ∀ i, 0x040 ≤ off ∧ off < 0x080 → P (.w i))
  (hi : ∀ i, 0x080 ≤ off ∧ off < 0x0C0 → P (.init i)) (hks : ∀ i, 0x0C0 ≤ off ∧ off < 0x100 → P (.ks i))
  (hpk : ∀ i, 0x100 ≤ off ∧ off < 0x120 → P (.pkey i)) (hr : ∀ i, 0x120 ≤ off ∧ off < 0x130 → P (.polyR i))
  (hs : ∀ i, 0x130 ≤ off ∧ off < 0x140 → P (.polyS i)) (hacc : ∀ i, 0x140 ≤ off ∧ off < 0x154 → P (.acc i))
  (hch : ∀ i, 0x160 ≤ off ∧ off < 0x170 → P (.chunk i)) (htag : ∀ i, 0x170 ≤ off ∧ off < 0x180 → P (.tag i))
  (hti : ∀ i, 0x180 ≤ off ∧ off < 0x190 → P (.tagIn i))
  (hal : off = 0x190 → P .aadLen) (hdl : off = 0x194 → P .dataLen)
  (hcap : off = 0x198 → P .caps)
  (hbuf : (0x1000 ≤ off ∧ off < 0x1000 + a) ∨ (0x2000 ≤ off ∧ off < 0x2000 + d) → P (.buffer off))
  (hres : off ≠ 0 → off ≠ 4 → off ≠ 8 → ¬ (0x010 ≤ off ∧ off < 0x0154) → ¬ (0x160 ≤ off ∧ off < 0x019C) →
    ¬ ((0x1000 ≤ off ∧ off < 0x1000 + a) ∨ (0x2000 ≤ off ∧ off < 0x2000 + d)) → P .reserved) : P (regAt a d off) := by
  unfold regAt
  refine reg_ite h0 fun _ => reg_ite h4 fun _ => reg_ite h8 fun _ => reg_dite (fun h => hkey _ h) fun _ =>
    reg_dite (fun h => hnonce _ h) fun _ => reg_ite hctr fun _ => reg_dite (fun h => hw _ h) fun _ =>
    reg_dite (fun h => hi _ h) fun _ => reg_dite (fun h => hks _ h) fun _ => reg_dite (fun h => hpk _ h) fun _ =>
    reg_dite (fun h => hr _ h) fun _ => reg_dite (fun h => hs _ h) fun _ => reg_dite (fun h => hacc _ h) fun _ =>
    reg_dite (fun h => hch _ h) fun _ => reg_dite (fun h => htag _ h) fun _ => reg_dite (fun h => hti _ h) fun _ =>
    reg_ite hal fun _ => reg_ite hdl fun _ => reg_ite hcap fun _ => reg_ite (fun h => hbuf ?_)
    (fun h => hres ?_ ?_ ?_ ?_ ?_ ?_)
  all_goals rw [inBuffer_iff] at h
  all_goals omega

theorem regAt_buffer {a d off : Nat} (h4 : off % 4 = 0)
    (h : (0x1000 ≤ off ∧ off < 0x1000 + a) ∨ (0x2000 ≤ off ∧ off < 0x2000 + d)) : regAt a d off = .buffer off := by
  apply regAt_cases (fun r => r = .buffer off) a d off h4
  all_goals intros; first | rfl | (exfalso; omega)

/-! Word `i` of a multi-word register sits at its offset plus `4i` (10_state.md section 2). -/

theorem regAt_key (a d : Nat) (i : Fin 8) : regAt a d (0x010 + 4 * i.val) = .key i := by fin_cases i <;> rfl
theorem regAt_nonce (a d : Nat) (i : Fin 3) : regAt a d (0x030 + 4 * i.val) = .nonce i := by fin_cases i <;> rfl
theorem regAt_w (a d : Nat) (i : Fin 16) : regAt a d (0x040 + 4 * i.val) = .w i := by fin_cases i <;> rfl
theorem regAt_init (a d : Nat) (i : Fin 16) : regAt a d (0x080 + 4 * i.val) = .init i := by fin_cases i <;> rfl
theorem regAt_ks (a d : Nat) (i : Fin 16) : regAt a d (0x0C0 + 4 * i.val) = .ks i := by fin_cases i <;> rfl
theorem regAt_pkey (a d : Nat) (i : Fin 8) : regAt a d (0x100 + 4 * i.val) = .pkey i := by fin_cases i <;> rfl
theorem regAt_polyR (a d : Nat) (i : Fin 4) : regAt a d (0x120 + 4 * i.val) = .polyR i := by fin_cases i <;> rfl
theorem regAt_polyS (a d : Nat) (i : Fin 4) : regAt a d (0x130 + 4 * i.val) = .polyS i := by fin_cases i <;> rfl
theorem regAt_acc (a d : Nat) (i : Fin 5) : regAt a d (0x140 + 4 * i.val) = .acc i := by fin_cases i <;> rfl
theorem regAt_chunk (a d : Nat) (i : Fin 4) : regAt a d (0x160 + 4 * i.val) = .chunk i := by fin_cases i <;> rfl
theorem regAt_tag (a d : Nat) (i : Fin 4) : regAt a d (0x170 + 4 * i.val) = .tag i := by fin_cases i <;> rfl
theorem regAt_tagIn (a d : Nat) (i : Fin 4) : regAt a d (0x180 + 4 * i.val) = .tagIn i := by fin_cases i <;> rfl

theorem flagAt_getLsbD (b : Bool) (k i : Nat) (hk : k < 32) : (flagAt b k).getLsbD i = (b && decide (i = k)) := by
  simp only [flagAt, BitVec.getLsbD_shiftLeft, BitVec.getLsbD_setWidth, BitVec.getLsbD_ofBool]
  rcases lt_trichotomy i k with h | h | h
  · have : i ≠ k := by omega
    simp [h, this]
  · subst h; simp [hk]
  · have e : i ≠ k := by omega
    have e2 : i - k ≠ 0 := by omega
    simp [e, e2]

/-- Every bit of the word read at `STATUS` (R25). -/
theorem statusWord_getLsbD (s : State) (i : Nat) (hi : i < 32) :
    (statusWord s).getLsbD i =
      ((s.busy && decide (i = 0)) || (s.done && decide (i = 1)) || (s.err && decide (i = 2)) ||
        (s.authFail && decide (i = 3)) || (s.authOk && decide (i = 4)) || (s.ovr && decide (i = 5)) ||
        (!decide (i < 8) && s.seq.code.getLsbD (i - 8)) || (!decide (i < 16) && s.errCode.code.getLsbD (i - 16))) := by
  have h := fun b k (hk : k < 32) => flagAt_getLsbD b k i hk
  simp only [statusWord, BitVec.getLsbD_or]
  rw [h _ _ (by decide), h _ _ (by decide), h _ _ (by decide), h _ _ (by decide), h _ _ (by decide), h _ _ (by decide)]
  simp [hi]

theorem readWord_lane (m : Memory) (off k : Nat) (hk : k < 4) :
    (Memory.readWord m off).extractLsb' (8 * k) 8 = Memory.read m (off + k) := by
  have hl := leInt_lt (Memory.readBytes m off 4)
  have h := leInt_leBytes 4 (leInt (Memory.readBytes m off 4))
  simp only [Memory.readBytes_length] at hl
  rw [Nat.mod_eq_of_lt hl] at h
  have h2 := leInt_inj (by simp) h
  have h3 := congrArg (fun l => l[k]?) h2
  rw [List.getElem?_eq_getElem (by simpa using hk), List.getElem?_eq_getElem (by simpa using hk), leBytes_getElem,
    Memory.readBytes_getElem] at h3
  rw [← Option.some.inj h3]
  apply BitVec.eq_of_toNat_eq
  have hl2 := List.take_of_length_le (i := 4) (l := Memory.readBytes m off 4) (by simp)
  simp [Memory.readWord, le32, hl2]
  rw [Nat.mod_eq_of_lt (a := leInt (m.readBytes off 4)) (b := 4294967296) (by simpa using hl)]

theorem read_writeWord {m : Memory} (h : Memory.wf m) (off : Nat) (v : Word) (x : Nat) :
    Memory.read (Memory.writeWord m off v) x =
      if off ≤ x ∧ x < off + 4 then v.extractLsb' (8 * (x - off)) 8 else Memory.read m x := by
  rw [Memory.writeWord, Memory.read_writeBytes h]
  simp only [leBytes_length]
  split
  · rename_i hx
    rw [leBytes_getElem]
    apply BitVec.eq_of_toNat_eq; simp
  · rfl

theorem readWord_writeWord {m : Memory} (h : Memory.wf m) (off : Nat) (v : Word) :
    Memory.readWord (Memory.writeWord m off v) off = v := by
  have : ∀ k, k < 4 →
      (Memory.readWord (Memory.writeWord m off v) off).extractLsb' (8 * k) 8 = v.extractLsb' (8 * k) 8 := by
    intro k hk
    rw [readWord_lane _ _ _ hk, read_writeWord h, if_pos (by omega)]; congr 2; omega
  apply BitVec.eq_of_getLsbD_eq
  intro i hi
  have := congrArg (fun x => x.getLsbD (i % 8)) (this (i / 8) (by omega))
  simp only [BitVec.getLsbD_extractLsb'] at this
  rw [show 8 * (i / 8) + i % 8 = i by omega] at this
  simpa [show i % 8 < 8 by omega] using this

end Sys2Proof.Machine
end

