-- ==== Sys2Proof/Tests/Slice0.lean ====
section
/-!
SUPPORT. Tests of single steps, every expected value from the spec (95_test_vectors.md, or the rule named), and for each
obligation that has hypotheses a named witness: a concrete state and operands that meet all of them together.
-/

namespace Sys2Proof.Tests

open Sys2Proof Sys2Proof.Machine

-- One theorem after another: each kernel evaluation below is long, and side by side they take much memory.
set_option Elab.async false

/-! ### Helpers -/

/-- The `n` bytes written as hexadecimal digits in memory order, as the spec prints byte strings. -/
def bytes (n v : Nat) : List Byte := (leBytes n v).reverse

/-- The next state an outcome answers, if it answers one. -/
def nextOf (o : Host.Outcome State Fault Refusal) : Option State :=
  match o with
  | .next t => some t
  | .fault _ => none
  | .refused _ => none

/-- What `f` sees in the next state of a command. -/
def seen {α : Type} (f : State → α) (i : Instr) (s : State) : Option α := (nextOf (exec i s)).map f

/-- The state right after reset with `W[i] = i`. -/
def counting : State :=
  { State.reset with w := #v[0, 1, 2, 3, 4, 5, 6, 7, 8, 9, 10, 11, 12, 13, 14, 15] }

/-- The key bytes `00 01 .. 1f`. -/
def key00 : Vector Word 8 :=
  #v[0x03020100, 0x07060504, 0x0b0a0908, 0x0f0e0d0c, 0x13121110, 0x17161514, 0x1b1a1918, 0x1f1e1d1c]

/-- The key bytes `80 81 .. 9f`. -/
def key80 : Vector Word 8 :=
  #v[0x83828180, 0x87868584, 0x8b8a8988, 0x8f8e8d8c, 0x93929190, 0x97969594, 0x9b9a9998, 0x9f9e9d9c]

/-- The inputs of T-BLK-1. -/
def blockInputs : State :=
  { State.reset with key := key00, counter := 1, nonce := #v[0x09000000, 0x4a000000, 0x00000000] }

/-- The 114 bytes of the plaintext of T-SX-1. -/
def plaintext : List Byte :=
  bytes 57 0x4c616469657320616e642047656e746c656d656e206f662074686520636c617373206f66202739393a204966204920636f756c64206f666665 ++
  bytes 57 0x7220796f75206f6e6c79206f6e652074697020666f7220746865206675747572652c2073756e73637265656e20776f756c642062652069742e

/-- The ciphertext of T-AEAD-1. -/
def ciphertext : List Byte :=
  bytes 57 0xd31a8d34648e60db7b86afbc53ef7ec2a4aded51296e08fea9e2b5a736ee62d63dbea45e8ca9671282fafb69da92728b1a71de0a9e060b2905 ++
  bytes 57 0xd6a5b67ecd3b3692ddbd7f2d778b8c9803aee328091b58fab324e4fad675945585808b4831d7bc3ff4def08e4b7a9de576d26586cec64b6116

/-- The inputs of T-AEAD-1 with these bytes in `DATA[0..114)`. -/
def aeadInputs (data : List Byte) : State :=
  { State.reset with
    key := key80, nonce := #v[0x00000007, 0x43424140, 0x47464544], aadLen := 12, dataLen := 114
    mem := Memory.writeBytes (Memory.writeBytes [] 0x1000 (bytes 12 0x50515253c0c1c2c3c4c5c6c7)) 0x2000 data }

/-- The inputs of T-AEAD-2. -/
def received : State :=
  { aeadInputs ciphertext with tagIn := #v[0x590be11a, 0x6ae2094f, 0xcb2e907e, 0x910660d0] }

/-- The key of T-POLY-1. -/
def polyKey : Vector Word 8 :=
  #v[0x78bed685, 0x336d5557, 0xfe52447f, 0xa806d542, 0x8a800301, 0xfdb20dfb, 0xaff6bf4a, 0x1bf54941]

/-- The state right after reset with the command word `cmd` pending. -/
def pendingState (cmd : Word) : State := { State.reset with pending := some cmd }

/-! ### Well-formedness (R74) -/

theorem test_absorb_length_0_is_ill_formed : WellFormed (.polyAbsorb 0) = false := by decide

theorem test_absorb_length_17_is_ill_formed : WellFormed (.polyAbsorb 17) = false := by decide

theorem test_absorb_length_31_is_ill_formed : WellFormed (.polyAbsorb 31) = false := by decide

theorem test_absorb_lengths_1_and_16_are_well_formed :
    WellFormed (.polyAbsorb 1) = true ∧ WellFormed (.polyAbsorb 16) = true := by decide

/-! ### Decoding: a word of every command, written out from R73, R75, R79, R83 and R104 -/

theorem test_decode_nop : decode 0x00000000 = .ok .nop := by rfl
theorem test_decode_qr : decode 0x00d87201 = .ok (.qr 2 7 8 13) := by rfl
theorem test_decode_qr_aliased : decode 0x00100101 = .ok (.qr 1 0 0 1) := by rfl
theorem test_decode_colround : decode 0x00000002 = .ok .colround := by rfl
theorem test_decode_diaground : decode 0x00000003 = .ok .diaground := by rfl
theorem test_decode_doubleround : decode 0x00000004 = .ok .doubleround := by rfl
theorem test_decode_permute : decode 0x00000005 = .ok .permute := by rfl
theorem test_decode_loadstate : decode 0x00000010 = .ok .loadstate := by rfl
theorem test_decode_addback : decode 0x00000011 = .ok .addback := by rfl
theorem test_decode_serialize : decode 0x00000012 = .ok .serialize := by rfl
theorem test_decode_block : decode 0x00000013 = .ok .block := by rfl
theorem test_decode_stream_xor : decode 0x00000014 = .ok .streamXor := by rfl
theorem test_decode_poly_init : decode 0x00000020 = .ok .polyInit := by rfl
theorem test_decode_poly_absorb : decode 0x00000b21 = .ok (.polyAbsorb 11) := by rfl
theorem test_decode_poly_final : decode 0x00000022 = .ok .polyFinal := by rfl
theorem test_decode_poly_mac : decode 0x00000023 = .ok .polyMac := by rfl
theorem test_decode_aead_enc : decode 0x00000030 = .ok .aeadEnc := by rfl
theorem test_decode_aead_dec : decode 0x00000031 = .ok .aeadDec := by rfl
theorem test_decode_clear : decode 0x0000003f = .ok .clear := by rfl

theorem test_decode_refuses_illegal_opcodes :
    decode 0x00000006 = .error .illegalOpcode ∧ decode 0x0000000f = .error .illegalOpcode ∧
    decode 0x00000015 = .error .illegalOpcode ∧ decode 0x0000001f = .error .illegalOpcode ∧
    decode 0x00000024 = .error .illegalOpcode ∧ decode 0x0000002f = .error .illegalOpcode ∧
    decode 0x00000032 = .error .illegalOpcode ∧ decode 0x0000003e = .error .illegalOpcode ∧
    decode 0x00000040 = .error .illegalOpcode ∧ decode 0xffffffff = .error .illegalOpcode := by
  refine ⟨?_, ?_, ?_, ?_, ?_, ?_, ?_, ?_, ?_, ?_⟩ <;> rfl

theorem test_decode_refuses_reserved_bits :
    decode 0x00000100 = .error .reservedBits ∧ decode 0x01000001 = .error .reservedBits ∧
    decode 0x00002021 = .error .reservedBits ∧ decode 0x8000003f = .error .reservedBits := by
  refine ⟨?_, ?_, ?_, ?_⟩ <;> rfl

theorem test_decode_table_word : decodeTableWord 32 0x00321001 = some (.qr 0 1 2 3) := by rfl

/-! ### The permutation engine -/

/-- T-QR-1. -/
theorem test_qr :
    seen (fun t => (t.w[0], t.w[1], t.w[2], t.w[3], statusWord t)) (.qr 0 1 2 3)
      { State.reset with w := #v[0x11111111, 0x01020304, 0x9b8d6f43, 0x01234567, 0, 0, 0, 0, 0, 0, 0, 0, 0, 0, 0, 0] }
      = some (0xea2a92f4, 0xcb1cf8ce, 0x4581472e, 0x5881c4bb, 0x00000002) := by decide +kernel

/-- T-QR-3: aliased slots. -/
theorem test_qr_aliased :
    seen (fun t => (t.w[0], t.w[1])) (.qr 0 1 0 1)
      { State.reset with w := #v[1, 2, 0, 0, 0, 0, 0, 0, 0, 0, 0, 0, 0, 0, 0, 0] }
      = some (0x01013303, 0x00980180) := by decide +kernel

/-- T-ROUND-1. -/
theorem test_colround : seen State.w .colround counting = some
    #v[0x8000c004, 0xb000c006, 0x6000c008, 0x5000c00a, 0x64624444, 0xe5e35cdd, 0x63643533, 0xe2e52daa,
       0x08c80488, 0x0bcb06b9, 0x06c6086a, 0x05c50a5b, 0x08c00480, 0x0bc006b0, 0x06c00860, 0x05c00a50] := by
  decide +kernel

/-- T-ROUND-2. -/
theorem test_diaground : seen State.w .diaground counting = some
    #v[0xa000f005, 0xb000d007, 0x4000f009, 0x9000d007, 0xecebcccc, 0x7d7ad555, 0xedebdddd, 0x7a7ca422,
       0x04f40948, 0x09d90799, 0x0afa05aa, 0x0bdb07bb, 0x0bd007b0, 0x04f00940, 0x09d00790, 0x0af005a0] := by
  decide +kernel

/-- T-ROUND-3. -/
theorem test_doubleround : seen State.w .doubleround counting = some
    #v[0xa9295c6a, 0xb471be7a, 0x38e65ec4, 0x74348b87, 0xf1ad76c6, 0x7b44627b, 0x946682b0, 0xf12f4910,
       0xd7e22f80, 0x3232ddd4, 0xb5b3b74d, 0xc0240444, 0xc8a5de45, 0xe417e1d3, 0x1a392478, 0x983c4ebf] := by
  decide +kernel

/-- T-PERM-2. -/
theorem test_permute : seen State.w .permute counting = some
    #v[0x48e90081, 0xf390518c, 0x224b1422, 0x0e74bdb7, 0x888688d2, 0x108e96f4, 0x1de13d82, 0x71bc3e28,
       0x281ff786, 0x66900ebd, 0xd3bfbe82, 0x815f33ee, 0x665aaeb4, 0x7485a165, 0x61889ce7, 0x94255e20] := by
  decide +kernel

/-! ### Blocks and streams -/

/-- T-BLK-1. -/
theorem test_loadstate :
    seen (fun t => (t.init, t.w)) .loadstate blockInputs =
      let i : Vector Word 16 :=
        #v[0x61707865, 0x3320646e, 0x79622d32, 0x6b206574, 0x03020100, 0x07060504, 0x0b0a0908, 0x0f0e0d0c,
           0x13121110, 0x17161514, 0x1b1a1918, 0x1f1e1d1c, 0x00000001, 0x09000000, 0x4a000000, 0x00000000]
      some (i, i) := by decide +kernel

/-- T-BLK-2: each sum wraps. -/
theorem test_addback_wraps :
    seen (fun t => (t.w, t.init)) .addback
      { State.reset with w := Vector.replicate 16 0xffffffff, init := Vector.replicate 16 1 }
      = some (Vector.replicate 16 0, Vector.replicate 16 1) := by decide +kernel

/-- T-BLK-3: the bytes of the block and the word the host reads at 0x0C0. -/
theorem test_serialize :
    seen (fun t => ((blockBytes t).take 4, readWindow t 0x0C0)) .serialize
      { State.reset with w := #v[0xe4e7f110, 0, 0, 0, 0, 0, 0, 0, 0, 0, 0, 0, 0, 0, 0, 0] }
      = some ([0x10, 0xf1, 0xe7, 0xe4], 0xe4e7f110) := by decide +kernel

/-- T-BLK-4. -/
theorem test_block :
    seen (fun t => (t.ks, t.counter, t.init[12])) .block blockInputs = some
      (#v[0xe4e7f110, 0x15593bd1, 0x1fdd0f50, 0xc47120a3, 0xc7f4d1c7, 0x0368c033, 0x9aaa2204, 0x4e6cd4c3,
          0x466482d2, 0x09aa9f07, 0x05d7c214, 0xa2028bd9, 0xd19c12b5, 0xb94e16de, 0xe883d0cb, 0x4e3c50a2], 1, 1) := by
  decide +kernel

/-- T-SX-4: the 65th byte takes byte 0 of the next block. -/
theorem test_stream_xor_block_boundary :
    seen (fun t => (Memory.readBytes t.mem 0x2000 4, Memory.readBytes t.mem 0x203f 3, t.init[12])) .streamXor
      { State.reset with dataLen := 65 }
      = some (bytes 4 0x76b8e0ad, [0x86, 0x9f, 0x00], 1) := by decide +kernel

/-- T-SX-3: no byte, but one block. -/
theorem test_stream_xor_empty :
    seen (fun t => (Memory.readBytes t.mem 0x2000 4, t.init[12], statusWord t)) .streamXor
      { State.reset with counter := 7, mem := Memory.writeBytes [] 0x2000 (bytes 4 0x11223344) }
      = some (bytes 4 0x11223344, 7, 0x00000002) := by decide +kernel

/-! ### Poly1305 -/

/-- T-POLY-1. -/
theorem test_poly_init :
    seen (fun t => (t.polyR, t.polyS, t.acc)) .polyInit { State.reset with pkey := polyKey, acc := 5 }
      = some (#v[0x08bed685, 0x036d5554, 0x0e52447c, 0x0806d540], #v[0x8a800301, 0xfdb20dfb, 0xaff6bf4a, 0x1bf54941],
          0) := by decide +kernel

/-- T-POLY-2, step 3: two bytes of `CHUNK`, the others ignored. -/
theorem test_poly_absorb_short :
    seen State.acc (.polyAbsorb 2)
      { State.reset with
        polyR := #v[0x08bed685, 0x036d5554, 0x0e52447c, 0x0806d540], acc := 0x2d8adaf23b0337fa7cccfb4ea344b30de
        chunk := #v[0x12347075, 0x65736552, 0x68637261, 0x6f724720] }
      = some 0x28d31b7caff946c77c8844335369d03a7 := by decide +kernel

/-- T-POLY-7: reduction. -/
theorem test_poly_absorb_wraps :
    seen State.acc (.polyAbsorb 16)
      { State.reset with polyR := #v[1, 0, 0, 0], acc := 2 ^ 129 - 1, chunk := Vector.replicate 4 0xffffffff }
      = some 3 := by decide +kernel

/-- T-POLY-9: the sum wraps at `2^128`; `ACC` is kept. -/
theorem test_poly_final_wraps :
    seen (fun t => (t.tag, t.acc)) .polyFinal
      { State.reset with acc := 0x1ff, polyS := Vector.replicate 4 0xffffffff }
      = some (#v[0x000001fe, 0, 0, 0], 0x1ff) := by decide +kernel

/-- T-POLY-4. -/
theorem test_poly_mac :
    seen (fun t => wordsLe t.tag.toList) .polyMac
      { State.reset with
        pkey := polyKey, dataLen := 34
        mem := Memory.writeBytes [] 0x2000
          (bytes 34 0x43727970746f6772617068696320466f72756d2052657365617263682047726f7570) }
      = some (bytes 16 0xa8061dc1305136c6c22b8baf0c0127a9) := by decide +kernel

/-- T-POLY-5: the empty message. -/
theorem test_poly_mac_empty :
    seen (fun t => (wordsLe t.tag.toList, t.acc)) .polyMac { State.reset with pkey := polyKey, acc := 9 }
      = some (bytes 16 0x0103808afb0db2fd4abff6af4149f51b, 0) := by decide +kernel

/-! ### The AEAD sequencer -/

/-- T-AEAD-1. -/
theorem test_aead_enc :
    seen (fun t => (dataBytes t, t.tag, t.acc, statusWord t, t.init[12])) .aeadEnc (aeadInputs plaintext) = some
      (ciphertext, #v[0x590be11a, 0x6ae2094f, 0xcb2e907e, 0x910660d0], 0x191b28b9252b8fd537f08943ee5350010, 0x00000502,
       2) := by decide +kernel

/-- T-AEAD-5: the tag of nothing under the all-zero key. -/
theorem test_tag_of_nothing :
    aeadTag State.reset.key State.reset.nonce (macData State.reset) =
      #v[0xc972b94e, 0x1b3afba8, 0xd3b42b38, 0xd1fa5f6f] := by decide +kernel

/-- T-AEAD-2: accepted. -/
theorem test_aead_dec_accepts :
    seen (fun t => (dataBytes t, t.tag, statusWord t, t.ks[0])) .aeadDec received = some
      (plaintext, received.tagIn, 0x00000312, 0x5fc4b1fc) := by decide +kernel

/-- T-AEAD-3: rejected; byte 0 of the tag differs. -/
theorem test_aead_dec_rejects :
    seen (fun t => (dataBytes t, t.tag, t.acc, statusWord t, t.init[12], t.ks[0])) .aeadDec
      { received with tagIn := #v[0x590be11b, 0x6ae2094f, 0xcb2e907e, 0x910660d0] } = some
      (ciphertext, #v[0, 0, 0, 0], 0, 0x0000040a, 0, 0x252bac7b) := by decide +kernel

/-! ### The system commands -/

/-- T-SYS-1, the flags as the acceptance left them: `NOP` completes and keeps `SEQ`. -/
theorem test_nop :
    seen statusWord .nop { counting with seq := .rejected, pending := some 0 } = some 0x00000402 := by decide +kernel

/-- T-SYS-3. -/
theorem test_clear :
    seen (fun t => (statusWord t, t.key, t.acc, t.mem)) .clear
      { aeadInputs plaintext with ovr := true, seq := .encrypt, acc := 7, pending := some 0x3f } = some
      (0x00000002, #v[0, 0, 0, 0, 0, 0, 0, 0], 0, []) := by decide +kernel

/-! ### The host and the step -/

/-- T-POLY-11, T-SYS-2 and T-QR-5: the status after each word is written to `CMD`. -/
theorem test_refusal_statuses :
    [0x00000021, 0x00001121, 0x00001f21, 0x00002021, 0x00000100, 0x01000001].map
        (fun cmd => (nextOf (transact (.write 0x008 4 cmd) State.reset)).map statusWord) =
      [some 0x00030004, some 0x00030004, some 0x00030004, some 0x00020004, some 0x00020004, some 0x00020004] := by
  decide +kernel

/-- T-SX-5 and T-SX-6: `STREAM_XOR` past the last counter, and past `DATA_CAP` as well. -/
theorem test_stream_xor_refusals :
    [65, 4097].map (fun n => (nextOf (transact (.write 0x008 4 0x14)
      { State.reset with counter := 0xffffffff, dataLen := n })).map statusWord) =
      [some 0x00050004, some 0x00040004] := by decide +kernel

/-- T-QR-4: one step runs the word that stands where the engine takes its next command. -/
theorem test_step_runs_placed_word :
    (nextOf (step (counting.withFetchWord 32 0x00cdef01))).map (fun t => (t.w[12], t.w[13], t.w[14], t.w[15], t.w[11]))
      = some (0x11301e10, 0x11411e1d, 0xa0970e00, 0x1000301e, 11) := by decide +kernel

/-- R79: `wrbytes` pads its bytes with zeros to a multiple of 4. -/
theorem test_wrbytes_pads :
    wrbytesLines 0x1000 [0x61, 0x62, 0x63, 0x64, 0x65] = [.wr 0x1000 (.num 0x64636261), .wr 0x1004 (.num 0x00000065)] :=
  by decide +kernel

/-- R79: `expect` compares with the value of a temporary. -/
theorem test_expect_temporary :
    [5, 6].map (fun v => (nextOf (runLine (.expect 0x03C (.temp 1))
      { State.reset with counter := 5, temps := [(1, v)] })).map State.expectFailed) = [some false, some true] := by
  decide +kernel

/-- R80: data longer than the buffer in pieces of 64 bytes, `COUNTER` advanced by 1 for each, and every word of the
result read, 16 of the first piece and one of the second. -/
theorem test_stream_xor_in_pieces :
    let lines := streamXorPiecesProgram 3 [] [] 7 1 (zeros 65)
    lines.filter (fun x => x ∈ [.wr 0x03C (.num 7), .wr 0x03C (.num 8), .wr 0x194 (.num 64), .wr 0x194 (.num 1)]) =
      [.wr 0x03C (.num 7), .wr 0x194 (.num 64), .wr 0x03C (.num 8), .wr 0x194 (.num 1)] ∧
    lines.filter (fun x => x ∈ [.label 3, .rd 0x2000 1, .rd 0x203C 16, .label 4, .rd 0x2000 17]) =
      [.label 3, .rd 0x2000 1, .rd 0x203C 16, .label 4, .rd 0x2000 17] := by decide +kernel

/-- R80: what the temporaries of a finished `aeadDecrypt` say, `AUTH_OK` (T-AEAD-2) and `AUTH_FAIL` (T-AEAD-3). -/
theorem test_aead_decrypt_result :
    aeadDecryptResult [(1, 0x00000312), (2, 0x6964614c)] 3 = some (.plaintext [0x4c, 0x61, 0x64]) ∧
    aeadDecryptResult [(1, 0x0000040a), (2, 0x348d1ad3)] 3 = some .authenticationFailure := by decide +kernel

/-! ### Witnesses: the hypotheses of each obligation, met together -/

/-- The state right after reset with both capacities at their least, 4 bytes. -/
def smallCaps : State := { State.reset with aadCap := ⟨4, by decide⟩, dataCap := ⟨4, by decide⟩ }

/-- A state whose registers hold something, with data and every length at its bound for capacities of 4 bytes. -/
def filled : State :=
  { smallCaps with
    key := key00, counter := 7, w := #v[0, 1, 2, 3, 4, 5, 6, 7, 8, 9, 10, 11, 12, 13, 14, 15], acc := 5
    polyR := #v[1, 0, 0, 0], chunk := #v[1, 2, 3, 4], aadLen := 4, dataLen := 4
    mem := [(0x1000, 0x61), (0x2000, 0x11), (0x2003, 0x44)] }

theorem filled_mem_wf : Memory.wf filled.mem := by decide

theorem witness_EncodeOfDecodeGivesWord : decode 0x00cdef01 = .ok (.qr 15 14 13 12) := by rfl

theorem witness_WordSpellsExactlyItsRow :
    decode 0x00001021 = .ok (.polyAbsorb 16) ∧
    ((⟨0x00000021, 0xFFFFE0FF⟩ : OpcodeRow) ∈ opcodeTable ∧
      (⟨0x00000021, 0xFFFFE0FF⟩ : OpcodeRow).spells 0x00001f21 = true) ∧
    ((⟨0x00000001, 0xFF0000FF⟩ : OpcodeRow) ∈ opcodeTable ∧
      (⟨0x00000001, 0xFF0000FF⟩ : OpcodeRow).spells 0x00ffff01 = true) := by
  refine ⟨rfl, ?_, ?_⟩ <;> decide

theorem witness_IllegalWordsAreRefused :
    State.reset.busy = false ∧
    (∀ o ∈ [0x06, 0x0F, 0x15, 0x1F, 0x24, 0x2F, 0x32, 0x3E, 0x40, 0xFF], illegalOpc o) ∧
    (¬ illegalOpc 0x01 ∧ (0x01000001#32).toNat % 2 ^ 8 = 0x01 ∧ (0x01000001#32).toNat / 2 ^ 24 ≠ 0) ∧
    (¬ illegalOpc 0x21 ∧ (0x00002021#32).toNat % 2 ^ 8 = 0x21 ∧ (0x00002021#32).toNat / 2 ^ 13 ≠ 0) ∧
    (¬ illegalOpc 0x3F ∧ (0x0000013f#32).toNat % 2 ^ 8 = 0x3F ∧ (0x0000013f#32).toNat / 2 ^ 8 ≠ 0) := by
  unfold illegalOpc; decide

theorem witness_AcceptanceChecksThenStarts :
    filled.busy = false ∧ acceptanceCode 0x14 filled = 0 ∧ acceptanceCode 0x06 filled = 1 ∧
    acceptanceCode 0x114 filled = 2 ∧ acceptanceCode 0x1121 filled = 3 ∧
    acceptanceCode 0x30 { filled with aadLen := 5 } = 4 ∧ acceptanceCode 0x14 { filled with dataLen := 5 } = 4 ∧
    acceptanceCode 0x14 { State.reset with counter := 0xffffffff, dataLen := 64 } = 0 ∧
    acceptanceCode 0x14 { State.reset with counter := 0xffffffff, dataLen := 65 } = 5 := by decide

theorem witness_RefusalChangesOnlyStatus :
    filled.busy = false ∧ check 0x00000021 filled ≠ .noError ∧ check 0x00000006 filled ≠ .noError := by decide

theorem witness_FirstFailingCheckIsReported :
    illegalOpc ((0x00000140#32).toNat % 2 ^ 8) ∧
    (let s := { State.reset with aadLen := 5000, dataLen := 5000 }
     s.aadLen.toNat > s.aadCap.val ∧ s.dataLen.toNat > s.dataCap.val) ∧
    (let s := { State.reset with counter := 0xffffffff, dataLen := 4097 }
     s.dataLen.toNat > s.dataCap.val ∧ s.counter.toNat + nblocks s.dataLen.toNat - 1 > 2 ^ 32 - 1) := by
  unfold illegalOpc; decide

/-- A width of 2, an offset that is no multiple of 4, and both, at the window's two ends. -/
theorem witness_InadmissibleAccessIsBusError :
    (0 < 0x3000 ∧ (2 ≠ 4 ∨ 0 % 4 ≠ 0)) ∧ (0x2FFE < 0x3000 ∧ (4 ≠ 4 ∨ 0x2FFE % 4 ≠ 0)) ∧
    (0x2FFF < 0x3000 ∧ (1 ≠ 4 ∨ 0x2FFF % 4 ≠ 0)) := by decide

theorem witness_BusyReadsShowIdAndStatus :
    (pendingState 0x05).busy = true ∧ ∀ off ∈ [0x000, 0x004, 0x008, 0x2FFC], off < 0x3000 ∧ off % 4 = 0 := by decide

theorem witness_BusyWritesOnlySetOverrun :
    (pendingState 0x05).busy = true ∧ ∀ off ∈ [0x000, 0x004, 0x008, 0x2FFC], off < 0x3000 ∧ off % 4 = 0 := by decide

theorem witness_StatusWordLayout : { State.reset with ovr := true }.busy = false := by rfl

theorem witness_StoredWordIsReadBack :
    smallCaps.busy = false ∧ Memory.wf smallCaps.mem ∧
    (∀ off ∈ [0x010, 0x0BC, 0x100, 0x11C, 0x160, 0x16C, 0x180, 0x194, 0x1000, 0x2000],
      off % 4 = 0 ∧ hostWritable smallCaps off) ∧
    ∀ off ∈ [0x1000, 0x2000], off % 4 = 0 ∧ ((0x1000 ≤ off ∧ off < 0x1000 + smallCaps.aadCap.val) ∨
      (0x2000 ≤ off ∧ off < 0x2000 + smallCaps.dataCap.val)) := by
  unfold hostWritable; decide

/-- The last words of the two buffers at their default capacities. -/
theorem witness_StoredWordIsReadBack_last : hostWritable State.reset 0x1FFC ∧ hostWritable State.reset 0x2FFC := by
  unfold hostWritable; decide

theorem witness_ReservedAndReadOnlyIgnoreWrites :
    (∀ off ∈ [0x00C, 0x154, 0x15C, 0x19C, 0xFFC, 0x1004, 0x1FFC, 0x2004, 0x2FFC],
      off % 4 = 0 ∧ reservedPlace smallCaps off) ∧
    ∀ off ∈ [0x000, 0x0C0, 0x0FC, 0x120, 0x150, 0x170, 0x17C, 0x198], off % 4 = 0 ∧ readOnlyPlace off := by
  unfold reservedPlace readOnlyPlace; decide

/-- No place is both reserved and writable, at the offsets where the ranges meet. -/
theorem witness_places_do_not_overlap :
    ∀ off ∈ [0x00C, 0x154, 0x15C, 0x19C, 0xFFC, 0x1004, 0x1FFC, 0x2004, 0x2FFC, 0x0C0, 0x120, 0x150, 0x170, 0x198],
      ¬ hostWritable smallCaps off := by
  unfold hostWritable; decide

theorem witness_BufferWordsAreLittleEndian :
    filled.busy = false ∧ Memory.wf filled.mem ∧ State.reset.busy = false ∧
    (∀ off ∈ [0x1000, 0x2000], off % 4 = 0 ∧ ((0x1000 ≤ off ∧ off < 0x1000 + filled.aadCap.val) ∨
      (0x2000 ≤ off ∧ off < 0x2000 + filled.dataCap.val))) ∧
    ∀ off ∈ [0x1FFC, 0x2FFC], off % 4 = 0 ∧ ((0x1000 ≤ off ∧ off < 0x1000 + State.reset.aadCap.val) ∨
      (0x2000 ≤ off ∧ off < 0x2000 + State.reset.dataCap.val)) := by decide

theorem witness_ReadsHaveNoSideEffect :
    (∃ t, transact (.read 0x2000 4) filled = .next t) ∧ ∃ t, transact (.read 0x001 2) (pendingState 5) = .next t :=
  ⟨⟨_, rfl⟩, ⟨_, rfl⟩⟩

theorem witness_IdAndCapacitiesAreConstant :
    filled.busy = false ∧ ∃ t, step (pendingState 0x05) = .next t := ⟨rfl, _, rfl⟩

theorem witness_AccumulatorReadsExactly :
    ({ State.reset with acc := 2 ^ 130 - 6 } : State).acc < 2 ^ 130 - 5 ∧ filled.busy = false := by decide

theorem witness_EveryBufferContentIsDrawn :
    (3 < smallCaps.aadCap.val ∧ 3 < smallCaps.dataCap.val) ∧
    (4095 < State.reset.aadCap.val ∧ 4095 < State.reset.dataCap.val) := by decide

theorem witness_FirstReadsAfterReset :
    ∃ t, takeTurn (.reset [(0x2000, 0x5a)]) (pendingState 0x31) = .next t := ⟨_, rfl⟩

theorem witness_EngineStepPerformsPending :
    (pendingState 0x05).pending = some 0x05 ∧ decode 0x05 = .ok .permute ∧ (pendingState 0x05).turns = [] ∧
    ((pendingState 0x05).withFetchWord 32 0x13).turns = .engine :: [] := ⟨rfl, rfl, rfl, rfl⟩

theorem witness_HostLinesAreTransactions :
    (0x000 < 0x3000 ∧ 0x000 % 4 = 0) ∧ (0x2FFC < 0x3000 ∧ 0x2FFC % 4 = 0) ∧ (1 : Nat) ≠ 0 := by decide

theorem witness_StepKeepsMachineInvariant :
    { filled with pending := some 0x31, ovr := true }.Inv ∧
      ∃ t, step { filled with pending := some 0x31, ovr := true } = .next t := by
  refine ⟨⟨⟨filled_mem_wf, by decide⟩, ⟨by decide, by decide⟩, ?_, ?_⟩, ?_⟩
  · unfold State.statusOk; decide
  · intro cmd h
    obtain rfl : 0x31 = cmd := Option.some.inj h
    decide
  · exact ⟨_, exec_of_noError (i := .aeadDec) (s := { filled with pending := some 0x31, ovr := true }) (by decide)⟩

theorem witness_StepStopsOnlyOutsideWindow :
    hostInWindow { State.reset with program := [.wr 0x2FFC (.num 1)] } = true ∧
    step { State.reset with program := [.wr 0x3000 (.num 1)] } = .fault (.outsideWindow 0x3000) := ⟨rfl, rfl⟩

theorem witness_OverrunIsSticky :
    (pendingState 0x05).busy = true ∧ State.reset.busy = false ∧
    ∃ t1 t2 t3,
      takeTurn (.reset []) { State.reset with ovr := true } = .next t1 ∧ t1.ovr = false ∧
      takeTurn .engine { pendingState 0x3f with ovr := true } = .next t2 ∧ t2.ovr = false ∧
      takeTurn .host { State.reset with ovr := true, program := [.wr 0x004 (.num 0x20)] } = .next t3 ∧
      t3.ovr = false := ⟨rfl, rfl, _, _, _, rfl, rfl, rfl, rfl, rfl, rfl⟩

/-- Every command, with its operands and the lengths and the counter at their bounds. -/
theorem witness_EveryCommandCompletes :
    ∀ i ∈ [Instr.nop, .qr 15 15 15 15, .colround, .diaground, .doubleround, .permute, .loadstate, .addback, .serialize,
        .block, .streamXor, .polyInit, .polyAbsorb 1, .polyAbsorb 16, .polyFinal, .polyMac, .aeadEnc, .aeadDec, .clear],
      WellFormed i = true ∧ lengthsFit i { filled with counter := 0xffffffff } = true ∧
        counterFits i { filled with counter := 0xffffffff } = true := by decide

theorem witness_PermuteIsEightyQuarterRounds : ∀ i : Fin 16, State.reset.w[i] = 0 := by decide

theorem witness_BlockIsFunctionOfKeyCounterNonce :
    { filled with w := State.reset.w, mem := [] }.key = filled.key ∧
    { filled with w := State.reset.w, mem := [] }.nonce = filled.nonce ∧
    { filled with w := State.reset.w, mem := [] }.counter = filled.counter := ⟨rfl, rfl, rfl⟩

/-- The last counter for a full block, and the full capacity. -/
theorem witness_StreamXorAppliesKeystream :
    (let s := { filled with counter := 0xffffffff, dataLen := 4 }
     Memory.wf s.mem ∧ s.dataLen.toNat ≤ s.dataCap.val ∧
      s.counter.toNat + nblocks s.dataLen.toNat - 1 ≤ 2 ^ 32 - 1) ∧
    let s := { State.reset with counter := 0xffffffc0, dataLen := 4096, mem := filled.mem }
    Memory.wf s.mem ∧ s.dataLen.toNat ≤ s.dataCap.val ∧
      s.counter.toNat + nblocks s.dataLen.toNat - 1 ≤ 2 ^ 32 - 1 := by decide

theorem witness_StreamXorTwiceRestoresData :
    Memory.wf filled.mem ∧ filled.dataLen.toNat ≤ filled.dataCap.val ∧
      filled.counter.toNat + nblocks filled.dataLen.toNat - 1 ≤ 2 ^ 32 - 1 := by decide

theorem witness_AbsorbAddsMultipliesReduces :
    (1 ≤ (1#5).toNat ∧ (1#5).toNat ≤ 16) ∧ (1 ≤ (16#5).toNat ∧ (16#5).toNat ≤ 16) := by decide

theorem witness_AbsorbIgnoresBytesBeyondLength :
    let u := { filled with chunk := #v[0x80000001, 9, 9, 9] }
    filled = { u with chunk := filled.chunk } ∧
    (∀ k, k < (3#5).toNat → (wordsLe filled.chunk.toList)[k]? = (wordsLe u.chunk.toList)[k]?) ∧
    (∃ t, exec (.polyAbsorb 3) filled = .next t) ∧ ∃ t', exec (.polyAbsorb 3) u = .next t' :=
  ⟨rfl, by decide, ⟨_, exec_of_noError (by decide)⟩, ⟨_, exec_of_noError (by decide)⟩⟩

theorem witness_MacEqualsChunkByChunk : filled.dataLen.toNat ≤ filled.dataCap.val := by decide

theorem witness_MacOfDataAndOfNothing :
    filled.dataLen.toNat ≤ filled.dataCap.val ∧ State.reset.dataLen.toNat ≤ State.reset.dataCap.val ∧
      State.reset.dataLen = 0 := by decide

theorem witness_OneTimeKeyIsFromBlockZero :
    filled.aadLen.toNat ≤ filled.aadCap.val ∧ filled.dataLen.toNat ≤ filled.dataCap.val := by decide

/-- The last item: a byte of `MACDATA` from each of its six parts, at the ends of the parts. -/
theorem witness_EncryptThenTag :
    Memory.wf filled.mem ∧ filled.aadLen.toNat ≤ filled.aadCap.val ∧ filled.dataLen.toNat ≤ filled.dataCap.val ∧
    ∀ k ∈ [0, 3, 4, 15, 16, 19, 20, 31, 32, 39, 40, 47], k < (macData filled).length := by
  decide

/-- The received tag is the tag of nothing (T-AEAD-5). -/
theorem witness_DecryptOnMatch :
    let s := { State.reset with tagIn := #v[0xc972b94e, 0x1b3afba8, 0xd3b42b38, 0xd1fa5f6f] }
    Memory.wf s.mem ∧ s.aadLen.toNat ≤ s.aadCap.val ∧ s.dataLen.toNat ≤ s.dataCap.val ∧
      aeadTag s.key s.nonce (macData s) = s.tagIn :=
  ⟨reset_mem_wf, by decide, by decide, test_tag_of_nothing⟩

/-- The received tag is 0 (T-AEAD-5). -/
theorem witness_RejectOnMismatch :
    State.reset.aadLen.toNat ≤ State.reset.aadCap.val ∧ State.reset.dataLen.toNat ≤ State.reset.dataCap.val ∧
      aeadTag State.reset.key State.reset.nonce (macData State.reset) ≠ State.reset.tagIn := by
  refine ⟨by decide, by decide, ?_⟩
  rw [test_tag_of_nothing]
  decide

theorem read_of_dataBytes_head {t : State} {b : Byte} (h : (dataBytes t).head? = some b) :
    Memory.read t.mem 0x2000 = b := by
  unfold dataBytes Memory.readBytes at h
  cases hn : t.dataLen.toNat with
  | zero => simp [hn] at h
  | succ n => simpa [hn, List.range_succ_eq_map] using h

/-- A byte is written by the accepted decryption of T-AEAD-2, and a read meets a pending `AEAD_DEC`. -/
theorem witness_NoPlaintextBeforeVerification :
    (∃ t, exec .aeadDec received = .next t ∧ Memory.read t.mem 0x2000 ≠ Memory.read received.mem 0x2000) ∧
    (pendingState 0x31).pending = some (encode .aeadDec) ∧
    ∃ t, transact (.read 0x2000 4) (pendingState 0x31) = .next t := by
  refine ⟨?_, rfl, _, rfl⟩
  obtain ⟨t, ht⟩ : ∃ t, exec .aeadDec received = .next t := ⟨_, exec_of_noError (by decide)⟩
  have hd := test_aead_dec_accepts
  rw [seen, ht] at hd
  have h0 : dataBytes t = plaintext := congrArg Prod.fst (Option.some.inj hd)
  have h1 : plaintext.head? = some 0x4c#8 := by decide +kernel
  refine ⟨t, ht, fun he => ?_⟩
  rw [read_of_dataBytes_head (h0 ▸ h1)] at he
  revert he
  decide +kernel

theorem witness_DecryptUndoesEncrypt :
    Memory.wf filled.mem ∧ filled.aadLen.toNat ≤ filled.aadCap.val ∧ filled.dataLen.toNat ≤ filled.dataCap.val := by
  decide

theorem witness_OnlyClearWritesInputs :
    Memory.wf filled.mem ∧ (∃ t, exec .streamXor filled = .next t) ∧ ∃ t, exec .clear filled = .next t :=
  ⟨filled_mem_wf, ⟨_, exec_of_noError (by decide)⟩, ⟨_, rfl⟩⟩

theorem witness_FrameOfRegisterCommands :
    ∀ i ∈ [Instr.nop, .qr 0 0 15 15, .colround, .diaground, .doubleround, .permute, .addback, .loadstate, .serialize,
        .block, .polyInit, .polyAbsorb 16, .polyFinal, .polyMac],
      checkInstr i filled = .noError ∧ ∃ t, exec i filled = .next t := by
  intro i hi
  have h : checkInstr i filled = .noError := by revert i; decide
  exact ⟨h, _, exec_of_noError h⟩

theorem witness_FrameOfStoringCommands :
    Memory.wf filled.mem ∧ ∀ i ∈ [Instr.streamXor, .aeadEnc, .aeadDec],
      checkInstr i filled = .noError ∧ ∃ t, exec i filled = .next t := by
  refine ⟨filled_mem_wf, fun i hi => ?_⟩
  have h : checkInstr i filled = .noError := by revert i; decide
  exact ⟨h, _, exec_of_noError h⟩

theorem witness_SequencerWrittenOnlyAtCompletion :
    ∃ t1 t2 t3,
      takeTurn (.reset []) { State.reset with seq := .encrypt } = .next t1 ∧ t1.seq ≠ .encrypt ∧
      takeTurn .engine (pendingState 0x30) = .next t2 ∧ t2.seq ≠ .idle ∧
      takeTurn .engine { pendingState 0x3f with seq := .decrypt } = .next t3 ∧ t3.seq ≠ .decrypt := by
  have h : exec .aeadEnc (pendingState 0x30) = _ := exec_of_noError (by decide)
  exact ⟨_, _, _, rfl, by decide, h, by simp [commandRule, aeadEncrypt_eq, pendingState], rfl, by decide⟩

/-- Two states that differ in the byte at the length, where the capacity still holds it. -/
theorem witness_BytesBeyondLengthsDoNotMatter :
    let s := { filled with dataLen := 3 }
    let u := { s with mem := [(0x1000, 0x61), (0x2000, 0x11), (0x2003, 0x99)] }
    Memory.wf s.mem ∧ Memory.wf u.mem ∧ sameOperands s u ∧ (∃ t, exec .aeadEnc s = .next t) ∧
      ∃ t', exec .aeadEnc u = .next t' := by
  refine ⟨by decide, by decide, ⟨rfl, by decide, by decide⟩, ⟨_, exec_of_noError (by decide)⟩,
    ⟨_, exec_of_noError (by decide)⟩⟩

end Sys2Proof.Tests
end

section
/-!
PROOFS. The register window and the status word (10_state.md): the layout of `STATUS`, the places that ignore writes, the
constants `ID` and `CAPS`, and the sticky `OVR`. First the laws they share: what an admitted transaction does, busy or
not, and what a register write, a command's rule and an agent's turn leave unchanged.
-/

namespace Sys2Proof.Machine

/-! ### Admitted transactions -/

theorem transact_read_word {off : Nat} (hw : off < windowSize) (h4 : off % 4 = 0) (s : State) :
    transact (.read off 4) s = .next { s with response := .value (readWindow s off) } := by
  rw [transact_read hw, busRead, admitted_word h4]; rfl

theorem transact_write_word {off : Nat} (hw : off < windowSize) (h4 : off % 4 = 0) (v : Word) (s : State) :
    transact (.write off 4 v) s = .next { writeWindow s off v with response := .ok } := by
  rw [transact_write hw, busWrite, admitted_word h4]; rfl

theorem readWindow_busy {s : State} (h : s.busy = true) (off : Nat) :
    readWindow s off = if off = 0x000 then idWord else if off = 0x004 then statusWord s else 0 := by
  rw [readWindow, if_pos h]

/-- `ID` answers at all times, busy or not (R24). -/
theorem readWindow_id (s : State) : readWindow s 0x000 = idWord := by
  cases h : s.busy
  · rw [readWindow_idle h]; rfl
  · rw [readWindow_busy h]; rfl

/-- `STATUS` answers at all times, busy or not (R25). -/
theorem readWindow_status (s : State) : readWindow s 0x004 = statusWord s := by
  cases h : s.busy
  · rw [readWindow_idle h]; rfl
  · rw [readWindow_busy h]; rfl

/-! ### What a register write leaves unchanged -/

theorem writeStatus_eq (v : Word) (s : State) : writeStatus v s = { s with ovr := s.ovr && !v.getLsbD 5 } := by
  unfold writeStatus; cases v.getLsbD 5 <;> simp

theorem accept_cases (cmd : Word) (s : State) : accept cmd s = start cmd s ∨ accept cmd s = refuse (check cmd s) s := by
  by_cases h : check cmd s = .noError
  · exact .inl (accept_of_noError h)
  · exact .inr (accept_of_error h)

theorem writeReg_caps (s : State) (v : Word) (r : Reg) :
    (writeReg s v r).aadCap = s.aadCap ∧ (writeReg s v r).dataCap = s.dataCap := by
  cases r with
  | status => rw [writeReg, writeStatus_eq]; exact ⟨rfl, rfl⟩
  | cmd => rw [writeReg]; rcases accept_cases v s with h | h <;> rw [h] <;> exact ⟨rfl, rfl⟩
  | _ => exact ⟨rfl, rfl⟩

/-- No register write but that of `STATUS` changes `OVR` (R29). -/
theorem writeReg_ovr (s : State) (v : Word) {r : Reg} (hr : r ≠ .status) : (writeReg s v r).ovr = s.ovr := by
  cases r with
  | status => exact absurd rfl hr
  | cmd => rw [writeReg]; rcases accept_cases v s with h | h <;> rw [h] <;> rfl
  | _ => rfl

/-! ### What a command and a turn leave unchanged -/

/-- Everything the rule of a command other than `CLEAR` can change. -/
theorem commandRule_eq_of_ne_clear {i : Instr} (hi : i ≠ .clear) (s : State) :
    commandRule i s = { s with
      authFail := (commandRule i s).authFail
      authOk := (commandRule i s).authOk
      seq := (commandRule i s).seq
      w := (commandRule i s).w
      init := (commandRule i s).init
      ks := (commandRule i s).ks
      pkey := (commandRule i s).pkey
      polyR := (commandRule i s).polyR
      polyS := (commandRule i s).polyS
      acc := (commandRule i s).acc
      tag := (commandRule i s).tag
      mem := (commandRule i s).mem } := by
  cases i with
  | clear => exact absurd rfl hi
  | streamXor => rw [commandRule, streamFrom_eq]
  | aeadEnc => rw [commandRule, aeadEncrypt_eq]
  | aeadDec => rw [commandRule, aeadDecrypt_eq]; split <;> rfl
  | _ =>
    simp only [commandRule, loadState, addBack, serializeState, doBlock_eq, polyInit, absorbChunk, finalize,
      absorbMessage]

theorem commandRule_ovr {i : Instr} (hi : i ≠ .clear) (s : State) : (commandRule i s).ovr = s.ovr := by
  rw [commandRule_eq_of_ne_clear hi s]

theorem commandRule_caps (i : Instr) (s : State) :
    (commandRule i s).aadCap = s.aadCap ∧ (commandRule i s).dataCap = s.dataCap := by
  by_cases hi : i = .clear
  · subst hi; exact ⟨rfl, rfl⟩
  · rw [commandRule_eq_of_ne_clear hi s]; exact ⟨rfl, rfl⟩

theorem hostStep_caps {s t : State} (h : hostStep s = .next t) : t.aadCap = s.aadCap ∧ t.dataCap = s.dataCap := by
  rcases hostStep_cases h with ⟨_, _, _, _, rfl⟩ | ⟨_, _, rfl, _, _, _, _, rfl⟩ | ⟨_, _, _, _, _, _, _, _, _, _, rfl⟩
  · exact ⟨rfl, rfl⟩
  · exact ⟨rfl, rfl⟩
  · exact writeReg_caps _ _ _

theorem engineStep_caps {s t : State} (h : engineStep s = .next t) : t.aadCap = s.aadCap ∧ t.dataCap = s.dataCap := by
  rcases engineStep_cases h with ⟨_, rfl⟩ | ⟨_, _, _, _, rfl⟩ | ⟨_, _, _, _, _, rfl⟩ | ⟨_, _, _, _, _, rfl⟩
  · exact ⟨rfl, rfl⟩
  · exact ⟨rfl, rfl⟩
  · exact ⟨rfl, rfl⟩
  · exact commandRule_caps _ _

/-! ### `STATUS` (O12) -/

theorem statusWord_flags (s : State) :
    (statusWord s).getLsbD 0 = s.busy ∧ (statusWord s).getLsbD 1 = s.done ∧ (statusWord s).getLsbD 2 = s.err ∧
    (statusWord s).getLsbD 3 = s.authFail ∧ (statusWord s).getLsbD 4 = s.authOk ∧
    (statusWord s).getLsbD 5 = s.ovr := by
  refine ⟨?_, ?_, ?_, ?_, ?_, ?_⟩
  all_goals rw [statusWord_getLsbD s _ (by decide)]; simp

/-- Above its flags, `STATUS` holds the bits of its two codes and no other (R25). -/
theorem statusWord_getLsbD_above_flags (s : State) {i : Nat} (hi : i < 32) (h6 : 6 ≤ i) :
    (statusWord s).getLsbD i =
      (!decide (i < 8) && s.seq.code.getLsbD (i - 8) || !decide (i < 16) && s.errCode.code.getLsbD (i - 16)) := by
  rw [statusWord_getLsbD s i hi, decide_eq_false (by omega : ¬ i = 0), decide_eq_false (by omega : ¬ i = 1),
    decide_eq_false (by omega : ¬ i = 2), decide_eq_false (by omega : ¬ i = 3), decide_eq_false (by omega : ¬ i = 4),
    decide_eq_false (by omega : ¬ i = 5)]
  simp only [Bool.and_false, Bool.false_or]

/-- A bit of a code at or beyond the code's width is 0, and so is one below its place. -/
theorem code_bit_outside {n lo i : Nat} (c : BitVec n) (h : i < lo ∨ lo + n ≤ i) :
    (!decide (i < lo) && c.getLsbD (i - lo)) = false := by
  rcases h with h | h
  · rw [decide_eq_true h]; rfl
  · rw [BitVec.getLsbD_of_ge c (i - lo) (by omega), Bool.and_false]

/-- A bit of a code at or above the code's place. -/
theorem code_bit_inside {n lo : Nat} (c : BitVec n) (j : Nat) :
    (!decide (lo + j < lo) && c.getLsbD (lo + j - lo)) = c.getLsbD j := by
  rw [decide_eq_false (by omega : ¬ lo + j < lo), Nat.add_sub_cancel_left]; rfl

/-- A range of reserved bits of `STATUS` reads 0. -/
theorem statusWord_reserved_bits (s : State) (lo len : Nat) (h6 : 6 ≤ lo) (hw : lo + len ≤ 32)
    (hs : lo + len ≤ 8 ∨ 11 ≤ lo) (he : lo + len ≤ 16 ∨ 20 ≤ lo) : (statusWord s).extractLsb' lo len = 0 := by
  apply BitVec.eq_of_getLsbD_eq
  intro i hi
  rw [BitVec.getLsbD_extractLsb', statusWord_getLsbD_above_flags s (by omega) (by omega),
    code_bit_outside _ (by omega), code_bit_outside _ (by omega)]
  simp

theorem statusWord_seq (s : State) : (statusWord s).extractLsb' 8 3 = s.seq.code := by
  apply BitVec.eq_of_getLsbD_eq
  intro i hi
  rw [BitVec.getLsbD_extractLsb', statusWord_getLsbD_above_flags s (by omega) (by omega), code_bit_inside,
    code_bit_outside s.errCode.code (by omega)]
  simp [hi]

theorem statusWord_errCode (s : State) : (statusWord s).extractLsb' 16 4 = s.errCode.code := by
  apply BitVec.eq_of_getLsbD_eq
  intro i hi
  rw [BitVec.getLsbD_extractLsb', statusWord_getLsbD_above_flags s (by omega) (by omega),
    code_bit_outside s.seq.code (by omega), code_bit_inside]
  simp [hi]

theorem transact_read_status (s : State) :
    transact (.read 0x004 4) s = .next { s with response := .value (statusWord s) } := by
  rw [transact_read_word (by decide) (by decide), readWindow_status]

theorem transact_write_status {s : State} (h : s.busy = false) (v : Word) :
    transact (.write 0x004 4 v) s = .next { s with ovr := s.ovr && !v.getLsbD 5, response := .ok } := by
  have hreg : regAt s.aadCap.val s.dataCap.val 0x004 = .status := rfl
  rw [transact_write_idle h (by decide) (by decide), hreg, writeReg, writeStatus_eq]

/-- Settles O12: each field is read off the bits of the word, and the transactions off the laws of the window. -/
theorem statusWordLayout : Obligations.StatusWordLayout := by
  refine ⟨by decide, fun s => ?_⟩
  obtain ⟨hbusy, hdone, herr, hfail, hok, hovr⟩ := statusWord_flags s
  exact ⟨hbusy, hdone, herr, hfail, hok, hovr,
    statusWord_reserved_bits s 6 2 (by decide) (by decide) (by decide) (by decide), statusWord_seq s,
    statusWord_reserved_bits s 11 5 (by decide) (by decide) (by decide) (by decide), statusWord_errCode s,
    statusWord_reserved_bits s 20 12 (by decide) (by decide) (by decide) (by decide), transact_read_status s,
    fun v h => transact_write_status h v⟩

/-! ### Places that ignore writes (O14) -/

theorem regAt_reserved {s : State} {off : Nat} (h4 : off % 4 = 0) (h : reservedPlace s off) :
    regAt s.aadCap.val s.dataCap.val off = .reserved := by
  have ha := s.aadCap.property
  unfold reservedPlace at h
  apply regAt_cases (fun r => r = .reserved) _ _ off h4
  case hres => intros; rfl
  all_goals intros; omega

/-- A write to a reserved place or a read-only register other than `STATUS` is ignored (R49). -/
theorem writeReg_ignored {s : State} {off : Nat} (v : Word) (h4 : off % 4 = 0)
    (h : reservedPlace s off ∨ readOnlyPlace off) : writeReg s v (regAt s.aadCap.val s.dataCap.val off) = s := by
  rcases h with h | h
  · rw [regAt_reserved h4 h, writeReg]
  · unfold readOnlyPlace at h
    apply regAt_cases (fun r => writeReg s v r = s) _ _ off h4
    case h0 | hks | hr | hs | hacc | htag | hcap | hres => intros; rfl
    all_goals intros; omega

theorem place_in_window {s : State} {off : Nat} (h : reservedPlace s off ∨ readOnlyPlace off) : off < windowSize := by
  unfold reservedPlace readOnlyPlace at h
  show off < 0x3000
  omega

/-- A reserved place reads 0, busy or not (R49). -/
theorem readWindow_reserved {s : State} {off : Nat} (h4 : off % 4 = 0) (h : reservedPlace s off) :
    readWindow s off = 0 := by
  cases hb : s.busy
  · rw [readWindow_idle hb, regAt_reserved h4 h, readReg]
  · unfold reservedPlace at h
    rw [readWindow_busy hb, if_neg (by omega), if_neg (by omega)]

/-- Settles O14, by cases on whether the engine is busy. -/
theorem reservedAndReadOnlyIgnoreWrites : Obligations.ReservedAndReadOnlyIgnoreWrites := by
  intro s off v h4
  constructor
  · intro h
    rw [transact_read_word (place_in_window (.inl h)) h4, readWindow_reserved h4 h]
  · intro h
    rw [transact_write_word (place_in_window h) h4]
    cases hb : s.busy
    · rw [writeWindow_idle hb, writeReg_ignored v h4 h, Bool.or_false]
    · rw [writeWindow_busy hb, Bool.or_true]

/-! ### `ID` and the capacities (O17) -/

theorem capsWord_toNat (s : State) : (capsWord s).toNat = s.aadCap.val + 2 ^ 16 * s.dataCap.val := by
  have ha := s.aadCap.property
  have hd := s.dataCap.property
  rw [capsWord, BitVec.toNat_ofNat, Nat.mod_eq_of_lt (by omega)]

/-- The two fields of `CAPS` (R44). -/
theorem capsWord_fields (s : State) : ((capsWord s).extractLsb' 0 16).toNat = s.aadCap.val ∧
    ((capsWord s).extractLsb' 16 16).toNat = s.dataCap.val := by
  have ha := s.aadCap.property
  have hd := s.dataCap.property
  simp only [BitVec.extractLsb'_toNat, capsWord_toNat, Nat.shiftRight_eq_div_pow]
  omega

theorem step_caps {s t : State} (h : step s = .next t) : t.aadCap = s.aadCap ∧ t.dataCap = s.dataCap := by
  obtain ⟨ts, s', rfl, -, ⟨-, hh⟩ | ⟨-, he⟩ | ⟨draw, -, rfl⟩⟩ := step_cases h
  · exact ⟨(hostStep_caps hh).1, (hostStep_caps hh).2⟩
  · exact ⟨(engineStep_caps he).1, (engineStep_caps he).2⟩
  · exact ⟨rfl, rfl⟩

/-- Settles O17: the two registers by the laws of the window, the capacities by cases on the agent that moves. -/
theorem idAndCapacitiesAreConstant : Obligations.IdAndCapacitiesAreConstant := by
  refine ⟨by decide, fun s => ?_, fun s v hb => ⟨?_, ?_, capsWord s, ?_, capsWord_fields s⟩, fun s t h => step_caps h⟩
  · rw [transact_read_word (by decide) (by decide), readWindow_id, idWord]
  · rw [transact_write_idle hb (by decide) (by decide)]; rfl
  · rw [transact_write_idle hb (by decide) (by decide)]; rfl
  · rw [transact_read_idle hb (by decide) (by decide)]; rfl

/-! ### `OVR` (O27) -/

theorem eq_four_of_regAt_status {a d off : Nat} (h4 : off % 4 = 0) : regAt a d off = .status → off = 0x004 := by
  apply regAt_cases (fun r => r = .status → off = 0x004) a d off h4
  case h4 => exact fun h _ => h
  all_goals exact fun _ => nofun

theorem formatN_eq_ok {cmd : Word} {i j : Instr} (h : formatN cmd i = .ok j) :
    i = j ∧ cmd.extractLsb' 8 24 = 0#24 := by
  unfold formatN at h
  split at h
  · exact ⟨Except.ok.inj h, ‹_›⟩
  · cases h

theorem formatQ_eq_ok {cmd : Word} {mk : Slot → Slot → Slot → Slot → Instr} {j : Instr} (h : formatQ cmd mk = .ok j) :
    mk (fieldA cmd) (fieldB cmd) (fieldC cmd) (fieldD cmd) = j ∧ cmd.extractLsb' 24 8 = 0#8 := by
  unfold formatQ at h
  split at h
  · exact ⟨Except.ok.inj h, ‹_›⟩
  · cases h

theorem formatL_eq_ok {cmd : Word} {mk : BitVec 5 → Instr} {j : Instr} (h : formatL cmd mk = .ok j) :
    mk (fieldLen cmd) = j ∧ cmd.extractLsb' 13 19 = 0#19 := by
  unfold formatL at h
  split at h
  · exact ⟨Except.ok.inj h, ‹_›⟩
  · cases h

/-- A word of format `N` is its opcode byte. -/
theorem toNat_eq_opc {cmd : Word} (h : cmd.extractLsb' 8 24 = 0#24) : cmd.toNat = (opc cmd).toNat := by
  have hhi := congrArg BitVec.toNat h
  rw [BitVec.extractLsb'_toNat, Nat.shiftRight_eq_div_pow, BitVec.toNat_ofNat] at hhi
  rw [opc, BitVec.extractLsb'_toNat, Nat.shiftRight_zero]
  omega

/-- Only one word spells `CLEAR`. -/
theorem eq_encode_clear_of_decode {cmd : Word} (h : decode cmd = .ok .clear) : cmd = encode .clear := by
  unfold decode at h
  split at h
  case h_18 hop => exact BitVec.eq_of_toNat_eq ((toNat_eq_opc (formatN_eq_ok h).2).trans hop)
  case h_2 => cases (formatQ_eq_ok h).1
  case h_13 => cases (formatL_eq_ok h).1
  case h_19 => cases h
  all_goals cases (formatN_eq_ok h).1

/-- The host's turn clears `OVR` only by an idle write of a 1 to bit 5 of `STATUS` (R29). -/
theorem hostStep_clears_ovr {s t : State} (h : hostStep s = .next t) (h1 : s.ovr = true) (h0 : t.ovr = false) :
    s.busy = false ∧ ∃ v, hostWrite s = some (0x004, 4, v) ∧ v.getLsbD 5 = true := by
  rcases hostStep_cases h with ⟨_, _, _, _, rfl⟩ | ⟨_, _, rfl, _, _, _, _, rfl⟩ | ⟨hb, off, v, hv, _, h4, _, _, _, _, rfl⟩
  · exact absurd (h1.symm.trans h0) nofun
  · exact absurd h0 nofun
  · have hw : (writeReg s v (regAt s.aadCap.val s.dataCap.val off)).ovr = false := h0
    by_cases hr : regAt s.aadCap.val s.dataCap.val off = .status
    · obtain rfl := eq_four_of_regAt_status h4 hr
      rw [hr, writeReg, writeStatus_eq] at hw
      exact ⟨hb, v, hv, by simpa [h1] using hw⟩
    · rw [writeReg_ovr s v hr, h1] at hw
      exact absurd hw nofun

/-- The engine's turn clears `OVR` only by performing `CLEAR` (R29). -/
theorem engineStep_clears_ovr {s t : State} (h : engineStep s = .next t) (h1 : s.ovr = true) (h0 : t.ovr = false) :
    s.pending = some (encode .clear) := by
  rcases engineStep_cases h with ⟨_, rfl⟩ | ⟨_, _, _, _, rfl⟩ | ⟨_, _, _, _, _, rfl⟩ | ⟨cmd, i, hp, hd, _, rfl⟩
  · exact absurd (h1.symm.trans h0) nofun
  · exact absurd (h1.symm.trans h0) nofun
  · exact absurd (h1.symm.trans h0) nofun
  · by_cases hi : i = .clear
    · subst hi; rw [hp, eq_encode_clear_of_decode hd]
    · rw [complete_ovr, commandRule_ovr hi, h1] at h0
      exact absurd h0 nofun

/-- Settles O27: the four effects by the laws of the window, and the rest by cases on the agent that moves. -/
theorem overrunIsSticky : Obligations.OverrunIsSticky := by
  refine ⟨fun s off v hb hw h4 => ?_, fun s v hb => ?_, fun s draw => ⟨_, rfl, rfl⟩, fun s => ⟨_, rfl, rfl⟩,
    fun turn s t h h1 h0 => ?_⟩
  · rw [transact_write_word hw h4, writeWindow_busy hb]; exact ⟨_, rfl, rfl⟩
  · rw [transact_write_status hb]; cases v.getLsbD 5 <;> simp
  · rcases takeTurn_cases h with ⟨rfl, hh⟩ | ⟨rfl, he⟩ | ⟨draw, rfl, -⟩
    · obtain ⟨hb, hv⟩ := hostStep_clears_ovr hh h1 h0
      exact .inr (.inr ⟨rfl, hb, hv⟩)
    · exact .inr (.inl ⟨rfl, engineStep_clears_ovr he h1 h0⟩)
    · exact .inl ⟨draw, rfl⟩

end Sys2Proof.Machine
end

section
/-!
PROOFS. Transactions on the host register port (20_memory.md): what an inadmissible transaction answers, and what the
window does while the engine is busy. The laws of admitted transactions stand with the register window.
-/

namespace Sys2Proof.Machine

/-! ### Inadmissible transactions (O9) -/

theorem busRead_not_admitted {off n : Nat} (h : admitted off n = false) (s : State) :
    busRead off n s = { s with response := .busError } := by
  rw [busRead, h]; rfl

theorem busWrite_not_admitted {off n : Nat} (h : admitted off n = false) (v : Word) (s : State) :
    busWrite off n v s = { s with response := .busError } := by
  rw [busWrite, h]; rfl

/-- Settles O9: the transaction is decoded by the window but not admitted, which is decided before any register is. -/
theorem inadmissibleAccessIsBusError : Obligations.InadmissibleAccessIsBusError := by
  intro s off n v hw hbad
  have hadm : admitted off n = false := not_admitted hbad
  constructor
  · rw [transact_read hw, busRead_not_admitted hadm]
  · rw [transact_write hw, busWrite_not_admitted hadm]

/-! ### The window while busy (O10, O11) -/

/-- Settles O10, by the law of an admitted read and the busy window. -/
theorem busyReadsShowIdAndStatus : Obligations.BusyReadsShowIdAndStatus := by
  intro s off hb hw h4
  rw [transact_read_word hw h4, readWindow_busy hb, idWord]

/-- Settles O11, by the law of an admitted write and the busy window. -/
theorem busyWritesOnlySetOverrun : Obligations.BusyWritesOnlySetOverrun := by
  intro s off v hb hw h4
  rw [transact_write_word hw h4, writeWindow_busy hb]

end Sys2Proof.Machine
end

section
/-!
PROOFS. Command words and their acceptance (30_encoding.md): what the decoder answers in exact integers, the refusal of
illegal words, and acceptance as R77 writes it. First the law of the decoder that both share, one case a format.
-/

namespace Sys2Proof.Machine

/-! ### The fields of a command word as integers -/

theorem opc_toNat (cmd : Word) : (opc cmd).toNat = cmd.toNat % 2 ^ 8 := by
  rw [opc, BitVec.extractLsb'_toNat, Nat.shiftRight_zero]

theorem fieldLen_toNat (cmd : Word) : (fieldLen cmd).toNat = cmd.toNat / 2 ^ 8 % 2 ^ 5 := by
  rw [fieldLen, BitVec.extractLsb'_toNat, Nat.shiftRight_eq_div_pow]

/-- The bits from `k` up to the word's top are all 0. -/
theorem extractLsb'_top_eq_zero {k n : Nat} (hkn : k + n = 32) (cmd : Word) :
    cmd.extractLsb' k n = 0#n ↔ cmd.toNat / 2 ^ k = 0 := by
  have hlt : cmd.toNat / 2 ^ k < 2 ^ n :=
    Nat.div_lt_of_lt_mul (by rw [← Nat.pow_add, hkn]; exact cmd.isLt)
  rw [← BitVec.toNat_inj, BitVec.extractLsb'_toNat, Nat.shiftRight_eq_div_pow, BitVec.toNat_ofNat, Nat.zero_mod,
    Nat.mod_eq_of_lt hlt]

/-! ### The opcodes (R75, R76) -/

/-- The two spellings of R76's set agree: the ranges it lists and the complement of R75's column. -/
theorem illegalOpc_iff (o : Nat) : illegalOpc o ↔
    o ∉ [0x00, 0x01, 0x02, 0x03, 0x04, 0x05, 0x10, 0x11, 0x12, 0x13, 0x14,
      0x20, 0x21, 0x22, 0x23, 0x30, 0x31, 0x3F] := by
  unfold illegalOpc
  simp only [List.mem_cons, List.not_mem_nil, or_false]
  omega

/-- No row of the opcode map stands at an illegal opcode. -/
theorem not_illegalOpc_pattern (i : Instr) : ¬ illegalOpc (rowOf i).pattern.toNat := by
  rw [illegalOpc_iff, not_not]
  cases i <;> simp [rowOf]

/-- A row of format `N` stands at neither opcode of the formats `Q` and `L`. -/
theorem pattern_ne_of_full_mask {i : Instr} (h : (rowOf i).mask = 0xFFFFFFFF) :
    (rowOf i).pattern.toNat ≠ 0x01 ∧ (rowOf i).pattern.toNat ≠ 0x21 := by
  cases i with
  | qr => cases h
  | polyAbsorb => cases h
  | _ => decide

/-! ### What the decoder answers -/

theorem formatN_eq_ite (cmd : Word) (i : Instr) :
    formatN cmd i = if cmd.toNat / 2 ^ 8 = 0 then .ok i else .error .reservedBits := by
  simp only [formatN, extractLsb'_top_eq_zero (k := 8) (n := 24) rfl]

theorem formatQ_eq_ite (cmd : Word) (mk : Slot → Slot → Slot → Slot → Instr) :
    formatQ cmd mk = if cmd.toNat / 2 ^ 24 = 0 then .ok (mk (fieldA cmd) (fieldB cmd) (fieldC cmd) (fieldD cmd))
      else .error .reservedBits := by
  simp only [formatQ, extractLsb'_top_eq_zero (k := 24) (n := 8) rfl]

theorem formatL_eq_ite (cmd : Word) (mk : BitVec 5 → Instr) :
    formatL cmd mk = if cmd.toNat / 2 ^ 13 = 0 then .ok (mk (fieldLen cmd)) else .error .reservedBits := by
  simp only [formatL, extractLsb'_top_eq_zero (k := 13) (n := 19) rfl]

/-- The decoder refuses an illegal opcode; any other selects a row of the opcode map, and with it the format whose
reserved bits are still to be tested (R75, R76). -/
theorem decode_cases (cmd : Word) :
    (illegalOpc (cmd.toNat % 2 ^ 8) ∧ decode cmd = .error .illegalOpcode) ∨
    (cmd.toNat % 2 ^ 8 = 0x01 ∧ decode cmd = formatQ cmd .qr) ∨
    (cmd.toNat % 2 ^ 8 = 0x21 ∧ decode cmd = formatL cmd .polyAbsorb) ∨
    (∃ i, (rowOf i).mask = 0xFFFFFFFF ∧ cmd.toNat % 2 ^ 8 = (rowOf i).pattern.toNat ∧
      decode cmd = formatN cmd i) := by
  rw [← opc_toNat]
  unfold decode
  split
  case h_2 hop => exact .inr (.inl ⟨hop, rfl⟩)
  case h_13 hop => exact .inr (.inr (.inl ⟨hop, rfl⟩))
  case h_19 =>
    refine .inl ⟨(illegalOpc_iff _).2 ?_, rfl⟩
    simp only [List.mem_cons, List.not_mem_nil, or_false, not_or]
    and_intros <;> assumption
  all_goals exact .inr (.inr (.inr ⟨_, rfl, ‹_›, rfl⟩))

/-- A reserved bit of the format of the word's opcode is 1 (R73): `cmd[31:24]` in format `Q`, `cmd[31:13]` in format
`L`, `cmd[31:8]` in format `N`. -/
def reservedBitSet (cmd : Word) : Prop :=
  (cmd.toNat % 2 ^ 8 = 0x01 ∧ cmd.toNat / 2 ^ 24 ≠ 0) ∨ (cmd.toNat % 2 ^ 8 = 0x21 ∧ cmd.toNat / 2 ^ 13 ≠ 0) ∨
    (cmd.toNat % 2 ^ 8 ≠ 0x01 ∧ cmd.toNat % 2 ^ 8 ≠ 0x21 ∧ cmd.toNat / 2 ^ 8 ≠ 0)

/-- A word of a legal opcode decodes to a command of its row, unless a reserved bit of its format is set. -/
theorem decode_of_legal {cmd : Word} (h : ¬ illegalOpc (cmd.toNat % 2 ^ 8)) :
    (reservedBitSet cmd ∧ decode cmd = .error .reservedBits) ∨
    (¬ reservedBitSet cmd ∧ ∃ i, decode cmd = .ok i ∧ cmd.toNat % 2 ^ 8 = (rowOf i).pattern.toNat ∧
      ∀ len, i = .polyAbsorb len → len = fieldLen cmd) := by
  unfold reservedBitSet
  rcases decode_cases cmd with ⟨hop, -⟩ | ⟨hop, hd⟩ | ⟨hop, hd⟩ | ⟨i, hmask, hop, hd⟩
  · exact absurd hop h
  · rw [hd, formatQ_eq_ite]
    split
    · exact .inr ⟨by omega, _, rfl, hop, nofun⟩
    · exact .inl ⟨by omega, rfl⟩
  · rw [hd, formatL_eq_ite]
    split
    · exact .inr ⟨by omega, _, rfl, hop, fun len he => (Instr.polyAbsorb.inj he).symm⟩
    · exact .inl ⟨by omega, rfl⟩
  · obtain ⟨hq, hl⟩ := pattern_ne_of_full_mask hmask
    rw [hd, formatN_eq_ite]
    split
    · refine .inr ⟨by omega, i, rfl, hop, ?_⟩
      rintro len rfl
      cases hmask
    · exact .inl ⟨by omega, rfl⟩

theorem decode_illegalOpcode {cmd : Word} (h : illegalOpc (cmd.toNat % 2 ^ 8)) :
    decode cmd = .error .illegalOpcode := by
  rcases decode_cases cmd with ⟨-, hd⟩ | ⟨hop, -⟩ | ⟨hop, -⟩ | ⟨i, -, hop, -⟩
  · exact hd
  · exact absurd h (hop ▸ not_illegalOpc_pattern (.qr 0 0 0 0))
  · exact absurd h (hop ▸ not_illegalOpc_pattern (.polyAbsorb 0))
  · exact absurd h (hop ▸ not_illegalOpc_pattern i)

/-! ### The check of a word -/

theorem check_of_decode_error {cmd : Word} {e : Reject} (h : decode cmd = .error e) (s : State) :
    check cmd s = rejectCode e := by
  rw [check, h]

theorem check_of_decode_ok {cmd : Word} {i : Instr} (h : decode cmd = .ok i) (s : State) :
    check cmd s = checkInstr i s := by
  rw [check, h]

theorem check_illegalOpcode {cmd : Word} (h : illegalOpc (cmd.toNat % 2 ^ 8)) (s : State) :
    check cmd s = .illegalOpcode :=
  check_of_decode_error (decode_illegalOpcode h) s

theorem check_reservedBits {cmd : Word} (h : ¬ illegalOpc (cmd.toNat % 2 ^ 8)) (hr : reservedBitSet cmd) (s : State) :
    check cmd s = .reservedBits := by
  rcases decode_of_legal h with ⟨-, hd⟩ | ⟨hnot, -⟩
  · exact check_of_decode_error hd s
  · exact absurd hr hnot

/-! ### A write to `CMD` while idle -/

theorem transact_write_cmd {s : State} (h : s.busy = false) (cmd : Word) :
    transact (.write 0x008 4 cmd) s = .next { accept cmd s with response := .ok } := by
  rw [transact_write_idle h (by decide) (by decide)]; rfl

theorem pending_of_idle {s : State} (h : s.busy = false) : s.pending = none := by
  simpa [State.busy] using h

/-- A refused command leaves its code in `STATUS` and has no other effect (R121). -/
theorem transact_write_cmd_refused {s : State} {cmd : Word} {code : ErrCode} (hb : s.busy = false)
    (hc : check cmd s = code) (hne : code ≠ .noError) :
    transact (.write 0x008 4 cmd) s = .next { s with
      done := false, authFail := false, authOk := false, err := true, errCode := code, response := .ok } := by
  subst hc
  rw [transact_write_cmd hb, accept_of_error hne, refuse, ← pending_of_idle hb]

/-- A command whose checks pass is pending, with the status of the one before it cleared (R77). -/
theorem transact_write_cmd_started {s : State} {cmd : Word} (hb : s.busy = false) (hc : check cmd s = .noError) :
    transact (.write 0x008 4 cmd) s = .next { s with
      done := false, authFail := false, authOk := false, err := false, errCode := .noError, pending := some cmd,
      response := .ok } := by
  rw [transact_write_cmd hb, accept_of_noError hc, start]

/-! ### Illegal words (O5) -/

/-- Settles O5, by the code the check gives each of the two kinds of word. -/
theorem illegalWordsAreRefused : Obligations.IllegalWordsAreRefused := by
  intro s cmd hb
  constructor
  · intro hop
    exact transact_write_cmd_refused hb (check_illegalOpcode hop s) (by decide)
  · intro hop hr
    exact transact_write_cmd_refused hb (check_reservedBits hop hr s) (by decide)

/-! ### Acceptance (O6) -/

theorem acceptanceCode_illegalOpcode {cmd : Word} (h : illegalOpc (cmd.toNat % 2 ^ 8)) (s : State) :
    acceptanceCode cmd s = 1 :=
  if_pos ((illegalOpc_iff _).1 h)

theorem acceptanceCode_reservedBits {cmd : Word} (h : ¬ illegalOpc (cmd.toNat % 2 ^ 8)) (hr : reservedBitSet cmd)
    (s : State) : acceptanceCode cmd s = 2 := by
  rw [illegalOpc_iff] at h
  rw [acceptanceCode, if_neg h]
  rcases hr with ⟨hop, hr⟩ | ⟨hop, hr⟩ | hr
  · rw [if_neg (by omega), if_pos ⟨hop, hr⟩]
  · rw [if_neg (by omega), if_neg (by omega), if_pos ⟨hop, hr⟩]
  · rw [if_pos hr]

/-- The checks of R77 after those of the word's bits, for the opcode `op` and the value `len` of `cmd[12:8]`. -/
def operandCode (op len : Nat) (s : State) : Nat :=
  if op = 0x21 ∧ ¬ (1 ≤ len ∧ len ≤ 16) then 3
  else if (op = 0x14 ∨ op = 0x23) ∧ s.dataLen.toNat > s.dataCap.val then 4
  else if (op = 0x30 ∨ op = 0x31) ∧ (s.aadLen.toNat > s.aadCap.val ∨ s.dataLen.toNat > s.dataCap.val) then 4
  else if op = 0x14 ∧ s.counter.toNat + max 1 ((s.dataLen.toNat + 63) / 64) - 1 > 2 ^ 32 - 1 then 5
  else 0

theorem acceptanceCode_eq_operandCode {cmd : Word} (h : ¬ illegalOpc (cmd.toNat % 2 ^ 8)) (hr : ¬ reservedBitSet cmd)
    (s : State) : acceptanceCode cmd s = operandCode (cmd.toNat % 2 ^ 8) (cmd.toNat / 2 ^ 8 % 2 ^ 5) s := by
  obtain ⟨hq, hl, hn⟩ := not_or.1 hr |>.imp_right not_or.1
  rw [illegalOpc_iff] at h
  rw [acceptanceCode, if_neg h, if_neg hn, if_neg hq, if_neg hl, operandCode]

theorem checkInstr_code_eq_ite (i : Instr) (s : State) : (checkInstr i s).code.toNat =
    if WellFormed i = false then 3 else if lengthsFit i s = false then 4 else if counterFits i s = false then 5
    else 0 := by
  unfold checkInstr
  split_ifs <;> rfl

theorem dataFits_eq_false {s : State} : dataFits s = false ↔ s.dataLen.toNat > s.dataCap.val := by
  rw [dataFits, decide_eq_false_iff_not, not_le]

theorem lengthsFit_aeadEnc_eq_false {s : State} : lengthsFit .aeadEnc s = false ↔
    s.aadLen.toNat > s.aadCap.val ∨ s.dataLen.toNat > s.dataCap.val := by
  rw [lengthsFit, Bool.and_eq_false_iff, aadFits, decide_eq_false_iff_not, not_le, dataFits_eq_false]

theorem lengthsFit_aeadDec_eq_false {s : State} : lengthsFit .aeadDec s = false ↔
    s.aadLen.toNat > s.aadCap.val ∨ s.dataLen.toNat > s.dataCap.val :=
  lengthsFit_aeadEnc_eq_false

theorem counterFits_streamXor_eq_false {s : State} : counterFits .streamXor s = false ↔
    s.counter.toNat + max 1 ((s.dataLen.toNat + 63) / 64) - 1 > 2 ^ 32 - 1 := by
  rw [counterFits, decide_eq_false_iff_not, not_le, nblocks]

/-- The checks of a decoded command are the integer checks at its opcode, `LEN` being an operand of `POLY_ABSORB`
alone. -/
theorem checkInstr_code (i : Instr) (s : State) (n : Nat) (hlen : ∀ len, i = .polyAbsorb len → len.toNat = n) :
    (checkInstr i s).code.toNat = operandCode (rowOf i).pattern.toNat n s := by
  rw [checkInstr_code_eq_ite]
  cases i with
  | polyAbsorb len => simp [operandCode, rowOf, WellFormed, lengthsFit, counterFits, ← hlen len rfl]
  | streamXor => simp [operandCode, rowOf, WellFormed, lengthsFit, dataFits_eq_false, counterFits_streamXor_eq_false]
  | polyMac => simp [operandCode, rowOf, WellFormed, lengthsFit, counterFits, dataFits_eq_false]
  | aeadEnc => simp [operandCode, rowOf, WellFormed, lengthsFit_aeadEnc_eq_false, counterFits]
  | aeadDec => simp [operandCode, rowOf, WellFormed, lengthsFit_aeadDec_eq_false, counterFits]
  | _ => simp [operandCode, rowOf, WellFormed, lengthsFit, counterFits]

/-- The check of R77 and its number: by whether the opcode is legal, then whether a reserved bit is set. -/
theorem check_code_eq_acceptanceCode (cmd : Word) (s : State) : (check cmd s).code.toNat = acceptanceCode cmd s := by
  by_cases hop : illegalOpc (cmd.toNat % 2 ^ 8)
  · rw [check_illegalOpcode hop, acceptanceCode_illegalOpcode hop]; rfl
  · rcases decode_of_legal hop with ⟨hr, -⟩ | ⟨hr, i, hd, hpat, hlen⟩
    · rw [check_reservedBits hop hr, acceptanceCode_reservedBits hop hr]; rfl
    · rw [check_of_decode_ok hd, acceptanceCode_eq_operandCode hop hr, hpat, ← fieldLen_toNat]
      exact checkInstr_code i s _ fun len hi => congrArg BitVec.toNat (hlen len hi)

theorem ErrCode.code_eq_zero {c : ErrCode} : c.code.toNat = 0 ↔ c = .noError := by
  cases c <;> decide

/-- Settles O6: the code by the check in exact integers, the state by the two outcomes of a write to `CMD`. -/
theorem acceptanceChecksThenStarts : Obligations.AcceptanceChecksThenStarts := by
  intro s cmd hb
  have hcode : (check cmd s).code.toNat = acceptanceCode cmd s := check_code_eq_acceptanceCode cmd s
  refine ⟨hcode, fun h0 => ?_, fun hne => ?_⟩
  · exact transact_write_cmd_started hb (ErrCode.code_eq_zero.1 (hcode.trans h0))
  · exact transact_write_cmd_refused hb rfl fun hc => hne (hcode ▸ ErrCode.code_eq_zero.2 hc)

end Sys2Proof.Machine
end

section
/-!
PROOFS. The permutation engine (40_permutation.md): the quarter round as the twelve assignments of R81, on the slots read
as a function. An assignment is `Function.update`, which takes aliased slots as R82 does.
-/

namespace Sys2Proof.Machine

/-! ### The quarter round on slots (O30) -/

/-- One line of R81 on the slots of `W` as a function: three assignments, each reading what the one before it left. -/
def slotStep (x y z : Slot) (n : Nat) (f : Slot → Word) : Slot → Word :=
  let f1 := Function.update f x (f x + f y)
  let f2 := Function.update f1 z (f1 z ^^^ f1 x)
  Function.update f2 z ((f2 z).rotateLeft n)

theorem getSlot_quarterStep (x y z : Slot) {n : Nat} (hn : n < 32) (w : Vector Word 16) :
    getSlot (quarterStep x y z n w) = slotStep x y z n (getSlot w) := by
  simp only [quarterStep, getSlot_setSlot_update, add32, xor32, rotl32_eq _ n hn, slotStep]

/-- The four lines of R81 in order, aliased slots included. -/
theorem getSlot_quarterRound (a b c d : Slot) (w : Vector Word 16) :
    getSlot (quarterRound a b c d w) =
      slotStep c d b 7 (slotStep a b d 8 (slotStep c d b 12 (slotStep a b d 16 (getSlot w)))) := by
  rw [quarterRound, getSlot_quarterStep c d b (by decide), getSlot_quarterStep a b d (by decide),
    getSlot_quarterStep c d b (by decide), getSlot_quarterStep a b d (by decide)]

theorem exec_qr (a b c d : Slot) (s : State) :
    exec (.qr a b c d) s = .next (complete { s with w := quarterRound a b c d s.w }) := rfl

/-- Settles O30: the twelve assignments are the four lines of R81, and `W` is the only register a quarter round
writes. -/
theorem quarterRoundIsTwelveAssignments : Obligations.QuarterRoundIsTwelveAssignments := by
  intro a b c d s
  exact ⟨_, exec_qr a b c d s, congrFun (getSlot_quarterRound a b c d s.w), rfl⟩

end Sys2Proof.Machine
end

section
/-!
PROOFS. Block state construction (41_block_serializer.md): the words of the initial state of R90, part by part, and what
`LOADSTATE` leaves in `I` and `W`.
-/

namespace Sys2Proof.Machine

/-! ### The words of the initial state (O36) -/

theorem initialState_sigma (key : Vector Word 8) (nonce : Vector Word 3) (ctr : Word) :
    (initialState key nonce ctr)[0] = 0x61707865 ∧ (initialState key nonce ctr)[1] = 0x3320646e ∧
      (initialState key nonce ctr)[2] = 0x79622d32 ∧ (initialState key nonce ctr)[3] = 0x6b206574 :=
  ⟨rfl, rfl, rfl, rfl⟩

theorem initialState_key (key : Vector Word 8) (nonce : Vector Word 3) (ctr : Word) (i : Fin 8) :
    (initialState key nonce ctr)[4 + i.val]'(by omega) = key[i] := by
  fin_cases i <;> rfl

theorem initialState_counter (key : Vector Word 8) (nonce : Vector Word 3) (ctr : Word) :
    (initialState key nonce ctr)[12] = ctr := rfl

theorem initialState_nonce (key : Vector Word 8) (nonce : Vector Word 3) (ctr : Word) (i : Fin 3) :
    (initialState key nonce ctr)[13 + i.val]'(by omega) = nonce[i] := by
  fin_cases i <;> rfl

theorem exec_loadstate (s : State) : exec .loadstate s = .next (complete (loadState s.counter s)) := rfl

/-- Settles O36: `LOADSTATE` puts the initial state for `COUNTER` in `I` and in `W`, and its words are read part by
part. -/
theorem loadstateBuildsInitialState : Obligations.LoadstateBuildsInitialState := by
  intro s
  obtain ⟨h0, h1, h2, h3⟩ := initialState_sigma s.key s.nonce s.counter
  exact ⟨_, exec_loadstate s, rfl, rfl, h0, h1, h2, h3, initialState_key s.key s.nonce s.counter,
    initialState_counter s.key s.nonce s.counter, initialState_nonce s.key s.nonce s.counter⟩

end Sys2Proof.Machine
end

section
/-!
PROOFS. Poly1305 finalization (42_poly1305.md): the words of the tag are the words of `ACC + int(S)`, and `POLY_FINAL`
writes nothing but them.
-/

namespace Sys2Proof.Machine

/-! ### The tag (O46) -/

theorem toNat_wordOf (v i : Nat) : (wordOf v i).toNat = v / 2 ^ (32 * i) % 2 ^ 32 := by
  rw [wordOf, BitVec.toNat_ofNat, Nat.shiftRight_eq_div_pow]

theorem tagWords_getElem (acc : Nat) (polyS : Vector Word 4) (i : Fin 4) :
    (tagWords acc polyS)[i] = wordOf (acc + intOf polyS.toList) i := by
  fin_cases i <;> rfl

theorem exec_polyFinal (s : State) : exec .polyFinal s = .next (complete (finalize s)) := rfl

/-- Settles O46: the tag is the four words of `ACC + int(S)`, each a division by a power of two, and together they are
that sum modulo `2^128`. -/
theorem finalTagIsSum : Obligations.FinalTagIsSum := by
  intro s
  have word (i : Fin 4) :
      (tagWords s.acc s.polyS)[i].toNat = (s.acc + intOf s.polyS.toList) / 2 ^ (32 * i.val) % 2 ^ 32 := by
    rw [tagWords_getElem, toNat_wordOf]
  exact ⟨_, exec_polyFinal s, rfl, intOf_tagWords s.acc s.polyS, word, rfl⟩

end Sys2Proof.Machine
end

section
/-!
PROOFS. The verdict of `AEAD_DEC` (43_aead.md): the comparison of R111 byte pair by byte pair, and the exact state after
each of its two outcomes (R114, R115).
-/

namespace Sys2Proof.Machine

/-! ### The comparison (O55) -/

/-- Two register files of four words are equal when their 16 bytes are. -/
theorem tag_eq_iff_bytes (v v' : Vector Word 4) :
    v = v' ↔ ∀ k, k < 16 → (wordsLe v.toList)[k]? = (wordsLe v'.toList)[k]? := by
  constructor
  · rintro rfl k -
    rfl
  · intro h
    have hbytes : wordsLe v.toList = wordsLe v'.toList := List.ext_getElem?' (by simpa using h)
    exact Vector.toList_inj.1 (wordsLe_inj (by simp) hbytes)

/-- Settles O55: the comparison decides whether the tags are equal, and they are when their bytes are. -/
theorem comparisonCountsEveryByte : Obligations.ComparisonCountsEveryByte := fun s =>
  (tagsEqual_iff s).trans (tag_eq_iff_bytes s.tag s.tagIn)

/-! ### What a payload does to memory -/

theorem read_payload_data {s : State} (h : Memory.wf s.mem) {k : Nat} (hk : k < s.dataLen.toNat) :
    Memory.read (payload s).mem (dataBase + k) =
      Memory.read s.mem (dataBase + k) ^^^ keystreamByte s.key s.nonce 1 k := by
  rw [read_payload h, if_pos (by omega), Nat.add_sub_cancel_left]

theorem read_payload_outside {s : State} (h : Memory.wf s.mem) {a : Nat}
    (ha : a < dataBase ∨ dataBase + s.dataLen.toNat ≤ a) : Memory.read (payload s).mem a = Memory.read s.mem a := by
  rw [read_payload h, if_neg (by omega)]

/-! ### `AEAD_DEC` on either verdict (O51, O52) -/

theorem exec_aeadDec {s : State} (ha : s.aadLen.toNat ≤ s.aadCap.val) (hd : s.dataLen.toNat ≤ s.dataCap.val) :
    exec .aeadDec s = .next (complete (aeadDecrypt s)) := by
  have hfit : lengthsFit .aeadDec s = true := by simp [lengthsFit, aadFits, dataFits, ha, hd]
  exact exec_of_noError (checkInstr_eq_noError.2 ⟨rfl, hfit, rfl⟩)

theorem aeadDecrypt_seq_eq_decrypt (s : State) :
    (aeadDecrypt s).seq = .decrypt ↔ aeadTag s.key s.nonce (macData s) = s.tagIn := by
  rw [aeadDecrypt_eq]
  by_cases h : aeadTag s.key s.nonce (macData s) = s.tagIn
  · rw [if_pos h]
    exact iff_of_true rfl h
  · rw [if_neg h]
    exact iff_of_false nofun h

/-- Settles O51: `SEQ` tells the verdict, and on a match the rule is the record update of R114. -/
theorem decryptOnMatch : Obligations.DecryptOnMatch := by
  intro s hwf ha hd
  refine ⟨_, exec_aeadDec ha hd, aeadDecrypt_seq_eq_decrypt s, fun hmatch => ?_⟩
  rw [aeadDecrypt_eq, if_pos hmatch]
  exact ⟨rfl, fun k hk => read_payload_data hwf hk, fun a hout => read_payload_outside hwf hout, rfl, rfl, rfl, rfl⟩

/-- Settles O52: on a mismatch the rule is the record update of R115. -/
theorem rejectOnMismatch : Obligations.RejectOnMismatch := by
  intro s ha hd hne
  rw [exec_aeadDec ha hd, aeadDecrypt_eq, if_neg hne, complete]

end Sys2Proof.Machine
end

section
/-!
PROOFS. A refusal (60_exceptions.md R121): the state it leaves is `refuse` with the bus answer, which differs from the
state before in `STATUS` alone, and no check and no start reads what it wrote.
-/

namespace Sys2Proof.Machine

/-! ### The state a refusal leaves (O7) -/

theorem transact_write_cmd_refuse {s : State} {cmd : Word} (hb : s.busy = false) (hne : check cmd s ≠ .noError) :
    transact (.write 0x008 4 cmd) s = .next { refuse (check cmd s) s with response := .ok } := by
  rw [transact_write_cmd hb, accept_of_error hne]

/-- A refusal writes no register but `STATUS`. -/
theorem readReg_refuse {r : Reg} (hr : r ≠ .status) (code : ErrCode) (s : State) (a : Response) :
    readReg { refuse code s with response := a } r = readReg s r := by
  cases r with
  | status => exact absurd rfl hr
  | _ => rfl

/-- The engine has no step when nothing is pending (R64). -/
theorem engineStep_of_not_pending {s : State} (h : s.pending = none) : engineStep s = .next s := by
  rw [engineStep, h]

/-! ### The acceptance after a refusal -/

/-- The checks read the lengths, the counter and the capacities, which a refusal keeps. -/
theorem check_refuse (cmd : Word) (code : ErrCode) (s : State) (a : Response) :
    check cmd { refuse code s with response := a } = check cmd s := by
  cases h : decode cmd with
  | error e => rw [check_of_decode_error h, check_of_decode_error h]
  | ok i => rw [check_of_decode_ok h, check_of_decode_ok h]; rfl

/-- The CORE does not remember a refusal: an acceptance overwrites everything the refusal wrote. -/
theorem transact_write_cmd_after_refuse {s : State} (hb : s.busy = false) (code : ErrCode) (a : Response)
    (next : Word) :
    transact (.write 0x008 4 next) { refuse code s with response := a } = transact (.write 0x008 4 next) s := by
  have hc : check next { refuse code s with response := a } = check next s := check_refuse next code s a
  rw [transact_write_cmd rfl, transact_write_cmd hb]
  by_cases h : check next s = .noError
  · rw [accept_of_noError h, accept_of_noError (hc.trans h)]; rfl
  · rw [accept_of_error h, accept_of_error (hc ▸ h), hc]; rfl

/-- Settles O7, by the state `refuse` gives. -/
theorem refusalChangesOnlyStatus : Obligations.RefusalChangesOnlyStatus := by
  intro s cmd hb hne
  refine ⟨_, transact_write_cmd_refuse hb hne, rfl, rfl, rfl, rfl, rfl, rfl, rfl, rfl, rfl, ?_, fun _ => rfl, ?_, ?_⟩
  · exact fun r hr => readReg_refuse hr (check cmd s) s .ok
  · exact engineStep_of_not_pending rfl
  · exact transact_write_cmd_after_refuse hb (check cmd s) .ok

end Sys2Proof.Machine
end

section
/-!
PROOFS. The reset event (70_reset_and_hazards.md section 1): the registers it leaves are those of the state right after
reset, each word of every register file 0, and with nothing pending the engine has no step.
-/

namespace Sys2Proof.Machine

/-! ### The registers a reset leaves (O19) -/

/-- A register file at its reset value reads 0 at every word (R52). -/
theorem word_eq_zero_of_eq_replicate {n : Nat} {file : Vector Word n} (h : file = Vector.replicate n 0) (i : Fin n) :
    file[i] = 0 := by
  rw [h]; exact Vector.getElem_replicate i.isLt

/-- `STATUS` reads 0 after a reset from any state: its flags and its two codes are those of the reset state (R52). -/
theorem statusWord_resetEvent (draw : List Host.Cell) (s : State) : statusWord (resetEvent draw s) = 0 := by
  have hsame : statusWord (resetEvent draw s) = statusWord State.reset := rfl
  obtain ⟨hzero, -⟩ := statusWordLayout
  exact hsame.trans hzero

/-- A reset discards the pending command without performing it: the engine has no step in the state it leaves (R135). -/
theorem engineStep_resetEvent (draw : List Host.Cell) (s : State) :
    engineStep (resetEvent draw s) = .next (resetEvent draw s) :=
  engineStep_of_not_pending rfl

/-- Settles O19: the turn answers `resetEvent`, whose single registers are 0 by definition and whose register files are
zeros, read word by word. -/
theorem resetEventSetsEveryRegister : Obligations.ResetEventSetsEveryRegister := by
  intro s draw
  refine ⟨resetEvent draw s, rfl, statusWord_resetEvent draw s, rfl, rfl, rfl, ?key, ?nonce, rfl, ?w, ?init, ?ks, ?pkey,
    ?polyR, ?polyS, rfl, ?chunk, ?tag, ?tagIn, rfl, rfl, rfl, rfl, engineStep_resetEvent draw s⟩
  all_goals exact word_eq_zero_of_eq_replicate rfl

end Sys2Proof.Machine
end

section
/-!
PROOFS. The encoder and the decoder are inverse to each other (30_encoding.md R72 to R75), and with that the rows of the
opcode map: a word spells a command exactly when it is the command's encoding.
-/

namespace Sys2Proof.Machine

/-! ### The bits of the encodings with operands -/

/-- Every bit of the word of `QR`: the opcode, the four slots, the reserved bits (R73). -/
theorem encode_qr_getLsbD (a b c d : Slot) {i : Nat} (hi : i < 32) : (encode (.qr a b c d)).getLsbD i =
    if i < 8 then decide (i = 0) else if i < 12 then a.getLsbD (i - 8) else if i < 16 then b.getLsbD (i - 12)
    else if i < 20 then c.getLsbD (i - 16) else if i < 24 then d.getLsbD (i - 20) else false := by
  simp only [encode]
  interval_cases i <;> simp

/-- Every bit of the word of `POLY_ABSORB`: the opcode 0x21, the length, the reserved bits (R73). -/
theorem encode_polyAbsorb_getLsbD (len : BitVec 5) {i : Nat} (hi : i < 32) : (encode (.polyAbsorb len)).getLsbD i =
    if i < 8 then decide (i = 0 ∨ i = 5) else if i < 13 then len.getLsbD (i - 8) else false := by
  simp only [encode]
  interval_cases i <;> simp

/-- A field of a word is what its bits spell. -/
theorem extractLsb'_eq_of_bits {n lo : Nat} {w : Word} {x : BitVec n}
    (h : ∀ i, i < n → w.getLsbD (lo + i) = x.getLsbD i) : w.extractLsb' lo n = x := by
  apply BitVec.eq_of_getLsbD_eq
  intro i hi
  rw [BitVec.getLsbD_extractLsb', h i hi, decide_eq_true hi, Bool.true_and]

theorem bits_of_extractLsb'_eq {n lo : Nat} {w : Word} {x : BitVec n} (h : w.extractLsb' lo n = x) {i : Nat}
    (hlo : lo ≤ i) (hi : i < lo + n) : w.getLsbD i = x.getLsbD (i - lo) := by
  rw [← h, BitVec.getLsbD_extractLsb', decide_eq_true (by omega), Bool.true_and, Nat.add_sub_cancel' hlo]

/-! ### Decoding an encoding (O2) -/

/-- The parts of the word of `QR` (R73). -/
theorem encode_qr_parts (a b c d : Slot) :
    opc (encode (.qr a b c d)) = 0x01#8 ∧ fieldA (encode (.qr a b c d)) = a ∧ fieldB (encode (.qr a b c d)) = b ∧
      fieldC (encode (.qr a b c d)) = c ∧ fieldD (encode (.qr a b c d)) = d ∧
      (encode (.qr a b c d)).extractLsb' 24 8 = 0#8 := by
  refine ⟨?_, ?_, ?_, ?_, ?_, ?_⟩
  all_goals
    refine extractLsb'_eq_of_bits fun i hi => ?_
    rw [encode_qr_getLsbD a b c d (by omega)]
    interval_cases i <;> rfl

theorem decode_encode_qr (a b c d : Slot) : decode (encode (.qr a b c d)) = .ok (.qr a b c d) := by
  obtain ⟨hop, hA, hB, hC, hD, hres⟩ := encode_qr_parts a b c d
  rw [decode, hop]
  show formatQ (encode (.qr a b c d)) .qr = .ok (.qr a b c d)
  rw [formatQ, if_pos hres, hA, hB, hC, hD]

theorem decode_encode_polyAbsorb (len : BitVec 5) : decode (encode (.polyAbsorb len)) = .ok (.polyAbsorb len) := by
  revert len; decide

/-- Settles O2, command by command: the two formats with operands field by field, the others by evaluation. -/
theorem decodeOfEncodeGivesCommand : Obligations.DecodeOfEncodeGivesCommand := by
  intro i
  cases i with
  | qr a b c d => exact decode_encode_qr a b c d
  | polyAbsorb len => exact decode_encode_polyAbsorb len
  | _ => rfl

/-! ### Encoding a decoding (O3) -/

/-- A word of opcode 0x01 whose reserved bits are 0 is the encoding of `QR` with its four slots. -/
theorem encode_qr_fields {w : Word} (hop : opc w = 0x01#8) (hres : w.extractLsb' 24 8 = 0#8) :
    encode (.qr (fieldA w) (fieldB w) (fieldC w) (fieldD w)) = w := by
  apply BitVec.eq_of_getLsbD_eq
  intro i hi
  rw [encode_qr_getLsbD _ _ _ _ hi]
  split_ifs with h8 h12 h16 h20 h24
  · rw [bits_of_extractLsb'_eq hop (by omega) (by omega)]
    interval_cases i <;> rfl
  · exact (bits_of_extractLsb'_eq rfl (by omega) (by omega)).symm
  · exact (bits_of_extractLsb'_eq rfl (by omega) (by omega)).symm
  · exact (bits_of_extractLsb'_eq rfl (by omega) (by omega)).symm
  · exact (bits_of_extractLsb'_eq rfl (by omega) (by omega)).symm
  · rw [bits_of_extractLsb'_eq hres (by omega) (by omega), BitVec.getLsbD_zero]

/-- A word of opcode 0x21 whose reserved bits are 0 is the encoding of `POLY_ABSORB` with its length. -/
theorem encode_polyAbsorb_field {w : Word} (hop : opc w = 0x21#8) (hres : w.extractLsb' 13 19 = 0#19) :
    encode (.polyAbsorb (fieldLen w)) = w := by
  apply BitVec.eq_of_getLsbD_eq
  intro i hi
  rw [encode_polyAbsorb_getLsbD _ hi]
  split_ifs with h8 h13
  · rw [bits_of_extractLsb'_eq hop (by omega) (by omega)]
    interval_cases i <;> rfl
  · exact (bits_of_extractLsb'_eq rfl (by omega) (by omega)).symm
  · rw [bits_of_extractLsb'_eq hres (by omega) (by omega), BitVec.getLsbD_zero]

/-- A command of format `N` has one word, the pattern of its row. -/
theorem encode_of_full_mask {i : Instr} (h : (rowOf i).mask = 0xFFFFFFFF) : encode i = (rowOf i).pattern := by
  cases i with
  | qr => cases h
  | polyAbsorb => cases h
  | _ => rfl

/-- Settles O3, by the format of the word's opcode. -/
theorem encodeOfDecodeGivesWord : Obligations.EncodeOfDecodeGivesWord := by
  intro w i h
  rcases decode_cases w with ⟨-, hd⟩ | ⟨hop, hd⟩ | ⟨hop, hd⟩ | ⟨j, hmask, hop, hd⟩
  · rw [hd] at h; cases h
  · obtain ⟨rfl, hres⟩ := formatQ_eq_ok (hd.symm.trans h)
    exact encode_qr_fields (BitVec.eq_of_toNat_eq ((opc_toNat w).trans hop)) hres
  · obtain ⟨rfl, hres⟩ := formatL_eq_ok (hd.symm.trans h)
    exact encode_polyAbsorb_field (BitVec.eq_of_toNat_eq ((opc_toNat w).trans hop)) hres
  · obtain ⟨rfl, hres⟩ := formatN_eq_ok (hd.symm.trans h)
    rw [encode_of_full_mask hmask]
    exact BitVec.eq_of_toNat_eq (((toNat_eq_opc hres).trans (opc_toNat w)).trans hop).symm

/-! ### The opcode map (O4) -/

theorem encode_spells_row (i : Instr) : Laws.RowMatch.Statement i := by
  cases i with
  | nop => exact Laws.RowMatch.nop
  | qr a b c d => exact Laws.RowMatch.qr a b c d
  | polyAbsorb len => exact Laws.RowMatch.polyAbsorb len
  | _ => unfold Laws.RowMatch.Statement; decide

/-- The opcode map is the rows of the 18 commands, in order. -/
theorem opcodeTable_eq_map : opcodeTable = List.map rowOf
    [.nop, .qr 0 0 0 0, .colround, .diaground, .doubleround, .permute, .loadstate, .addback, .serialize, .block,
      .streamXor, .polyInit, .polyAbsorb 0, .polyFinal, .polyMac, .aeadEnc, .aeadDec, .clear] := rfl

theorem exists_rowOf_of_mem {row : OpcodeRow} (h : row ∈ opcodeTable) : ∃ i, rowOf i = row := by
  rw [opcodeTable_eq_map] at h
  obtain ⟨i, -, hi⟩ := List.mem_map.1 h
  exact ⟨i, hi⟩

/-- A field that a row's mask covers is the row's pattern there. -/
theorem extractLsb'_of_spells {row : OpcodeRow} {w : Word} (h : row.spells w = true) {lo n : Nat}
    (hmask : row.mask.extractLsb' lo n = BitVec.allOnes n) : w.extractLsb' lo n = row.pattern.extractLsb' lo n := by
  rw [← eq_of_beq h, BitVec.extractLsb'_and, hmask, BitVec.and_allOnes]

theorem eq_pattern_of_spells {row : OpcodeRow} {w : Word} (hmask : row.mask = 0xFFFFFFFF) (h : row.spells w = true) :
    w = row.pattern := by
  rw [← eq_of_beq h, hmask]
  exact BitVec.and_allOnes.symm

/-- A word that matches a command's row is the encoding of a command of that row. -/
theorem exists_encode_of_spells {i : Instr} {w : Word} (h : (rowOf i).spells w = true) :
    ∃ j, rowOf j = rowOf i ∧ encode j = w := by
  cases i with
  | qr a b c d =>
    have h : (⟨0x00000001, 0xFF0000FF⟩ : OpcodeRow).spells w = true := h
    have hop : opc w = 0x01#8 := (extractLsb'_of_spells h (by decide)).trans (by decide)
    have hres : w.extractLsb' 24 8 = 0#8 := (extractLsb'_of_spells h (by decide)).trans (by decide)
    exact ⟨.qr (fieldA w) (fieldB w) (fieldC w) (fieldD w), rfl, encode_qr_fields hop hres⟩
  | polyAbsorb len =>
    have h : (⟨0x00000021, 0xFFFFE0FF⟩ : OpcodeRow).spells w = true := h
    have hop : opc w = 0x21#8 := (extractLsb'_of_spells h (by decide)).trans (by decide)
    have hres : w.extractLsb' 13 19 = 0#19 := (extractLsb'_of_spells h (by decide)).trans (by decide)
    exact ⟨.polyAbsorb (fieldLen w), rfl, encode_polyAbsorb_field hop hres⟩
  | _ => exact ⟨_, rfl, (encode_of_full_mask rfl).trans (eq_pattern_of_spells rfl h).symm⟩

theorem decode_of_spells {row : OpcodeRow} {w : Word} (hrow : row ∈ opcodeTable) (h : row.spells w = true) :
    ∃ i, decode w = .ok i ∧ rowOf i = row := by
  obtain ⟨i, rfl⟩ := exists_rowOf_of_mem hrow
  obtain ⟨j, hj, rfl⟩ := exists_encode_of_spells h
  exact ⟨j, decodeOfEncodeGivesCommand j, hj⟩

/-- Settles O4: a word that decodes is an encoding, which matches its row; a word that matches a row is the encoding of
a command of it; and one word decodes to one command, so to one row. -/
theorem wordSpellsExactlyItsRow : Obligations.WordSpellsExactlyItsRow := by
  refine ⟨fun w i h => ?_, fun w row => decode_of_spells, fun w r r' hr hr' h h' => ?_⟩
  · obtain rfl := encodeOfDecodeGivesWord w i h
    exact encode_spells_row i
  · obtain ⟨i, hi, rfl⟩ := decode_of_spells hr h
    obtain ⟨j, hj, rfl⟩ := decode_of_spells hr' h'
    rw [Except.ok.inj (hi.symm.trans hj)]

/-- Settles O1: each word is evaluated. -/
theorem spelledWordsDecode : Obligations.SpelledWordsDecode := by
  exact ⟨rfl, rfl, rfl, rfl, rfl, rfl, rfl, rfl, rfl, rfl, rfl⟩

end Sys2Proof.Machine
end

section
/-!
PROOFS. What the commands change and what they leave alone (10_state.md sections 3 to 6, 20_memory.md section 3). First
what the engine's step can do and what a command's rule can do to memory and to `STATUS`, said once for all 18 commands.
-/

namespace Sys2Proof.Machine

/-! ### What the engine's step can do -/

/-- Everything the engine's step can do for a command: its rule and its completion, or the refusal its checks call
for. -/
theorem exec_cases {i : Instr} {s t : State} (h : exec i s = .next t) :
    (checkInstr i s = .noError ∧ t = complete (commandRule i s)) ∨
      (checkInstr i s ≠ .noError ∧ t = refuse (checkInstr i s) s) := by
  by_cases hc : checkInstr i s = .noError
  · exact .inl ⟨hc, next_inj ((exec_of_noError hc).symm.trans h)⟩
  · rw [exec_eq, if_neg hc] at h
    exact .inr ⟨hc, next_inj h⟩

theorem eq_complete_of_exec {i : Instr} {s t : State} (hc : checkInstr i s = .noError) (h : exec i s = .next t) :
    t = complete (commandRule i s) :=
  next_inj ((exec_of_noError hc).symm.trans h)

/-! ### What the rule of a command can do -/

/-- A command that stores into `DATA` (R97, R112, R114). -/
def storesData (i : Instr) : Prop := i = .streamXor ∨ i = .aeadEnc ∨ i = .aeadDec

/-- Everything the rule of a command can do to memory: nothing, one payload, or `CLEAR`. -/
theorem commandRule_mem_cases (i : Instr) (s : State) :
    (commandRule i s).mem = s.mem ∨
    (storesData i ∧ ∃ ctr, (commandRule i s).mem = (streamFrom ctr s.dataLen.toNat s).mem) ∨
    (i = .clear ∧ (commandRule i s).mem = []) := by
  cases i with
  | colround | diaground | doubleround | permute => rw [commandRule]; exact .inl rfl
  | block => rw [commandRule, doBlock_eq]; exact .inl rfl
  | streamXor => exact .inr (.inl ⟨.inl rfl, _, rfl⟩)
  | aeadEnc => exact .inr (.inl ⟨.inr (.inl rfl), 1, by rw [commandRule, aeadEncrypt_eq]; exact payload_mem s⟩)
  | aeadDec =>
    rw [commandRule, aeadDecrypt_eq]
    split
    · exact .inr (.inl ⟨.inr (.inr rfl), 1, payload_mem s⟩)
    · exact .inl rfl
  | clear => exact .inr (.inr ⟨rfl, rfl⟩)
  | _ => exact .inl rfl

/-- Everything the rule of a command can do to `SEQ`, `AUTH_OK` and `AUTH_FAIL` (R30, R31). -/
theorem commandRule_verdict_cases (i : Instr) (s : State) :
    ((commandRule i s).seq = s.seq ∧ (commandRule i s).authOk = s.authOk ∧ (commandRule i s).authFail = s.authFail) ∨
    (i = .aeadEnc ∧ (commandRule i s).seq = .encrypt ∧ (commandRule i s).authOk = s.authOk ∧
      (commandRule i s).authFail = s.authFail) ∨
    (i = .aeadDec ∧ (commandRule i s).seq = .decrypt ∧ (commandRule i s).authOk = true ∧
      (commandRule i s).authFail = s.authFail) ∨
    (i = .aeadDec ∧ (commandRule i s).seq = .rejected ∧ (commandRule i s).authOk = s.authOk ∧
      (commandRule i s).authFail = true ∧ (commandRule i s).acc = 0 ∧ (commandRule i s).tag = #v[0, 0, 0, 0]) ∨
    (i = .clear ∧ (commandRule i s).seq = .idle ∧ (commandRule i s).authOk = false ∧
      (commandRule i s).authFail = false) := by
  cases i with
  | colround | diaground | doubleround | permute => rw [commandRule]; exact .inl ⟨rfl, rfl, rfl⟩
  | block => rw [commandRule, doBlock_eq]; exact .inl ⟨rfl, rfl, rfl⟩
  | streamXor => rw [commandRule, streamFrom_eq]; exact .inl ⟨rfl, rfl, rfl⟩
  | aeadEnc => rw [commandRule, aeadEncrypt_eq]; exact .inr (.inl ⟨rfl, rfl, rfl, rfl⟩)
  | aeadDec =>
    rw [commandRule, aeadDecrypt_eq]
    split
    · exact .inr (.inr (.inl ⟨rfl, rfl, rfl, rfl⟩))
    · exact .inr (.inr (.inr (.inl ⟨rfl, rfl, rfl, rfl, rfl, rfl⟩)))
  | clear => exact .inr (.inr (.inr (.inr ⟨rfl, rfl, rfl, rfl⟩)))
  | _ => exact .inl ⟨rfl, rfl, rfl⟩

/-- A command that is performed leaves no error recorded where none was (R28, R77). -/
theorem commandRule_no_error (i : Instr) {s : State} (he : s.err = false) (hc : s.errCode = .noError) :
    (commandRule i s).err = false ∧ (commandRule i s).errCode = .noError := by
  by_cases hi : i = .clear
  · subst hi; exact ⟨rfl, rfl⟩
  · rw [commandRule_eq_of_ne_clear hi s]; exact ⟨he, hc⟩

/-! ### Completion (O28, O29) -/

/-- Settles O28: a command whose checks hold ends by `complete`. -/
theorem everyCommandCompletes : Obligations.EveryCommandCompletes := by
  intro i s hwf hlen hctr
  have hc : checkInstr i s = .noError := checkInstr_eq_noError.2 ⟨hwf, hlen, hctr⟩
  exact ⟨_, exec_of_noError hc, complete_busy _, complete_pending _, complete_done _⟩

theorem exec_nop (s : State) : exec .nop s = .next (complete s) := rfl

/-- Settles O29, by the law of `NOP`. -/
theorem nopOnlyCompletes : Obligations.NopOnlyCompletes := fun s => exec_nop s

/-! ### Frames (O56, O57, O58) -/

/-- No command writes the host's fields or the order of turns. -/
theorem commandRule_host (i : Instr) (s : State) :
    (commandRule i s).response = s.response ∧ (commandRule i s).program = s.program ∧
      (commandRule i s).hostPc = s.hostPc ∧ (commandRule i s).temps = s.temps ∧
      (commandRule i s).expectFailed = s.expectFailed ∧ (commandRule i s).turns = s.turns := by
  by_cases hi : i = .clear
  · subst hi; exact ⟨rfl, rfl, rfl, rfl, rfl, rfl⟩
  · rw [commandRule_eq_of_ne_clear hi s]; exact ⟨rfl, rfl, rfl, rfl, rfl, rfl⟩

/-- No command but `CLEAR` writes a byte outside `DATA[0..DATA_LEN)`. -/
theorem read_commandRule_outside {i : Instr} (hi : i ≠ .clear) {s : State} (hwf : Memory.wf s.mem) {a : Nat}
    (ha : ¬ (dataBase ≤ a ∧ a < dataBase + s.dataLen.toNat)) :
    Memory.read (commandRule i s).mem a = Memory.read s.mem a := by
  rcases commandRule_mem_cases i s with hm | ⟨-, ctr, hm⟩ | ⟨hclear, -⟩
  · rw [hm]
  · rw [hm, read_streamFrom ctr _ hwf, if_neg ha]
  · exact absurd hclear hi

/-- Settles O56, by whether the command is performed or refused. -/
theorem onlyClearWritesInputs : Obligations.OnlyClearWritesInputs := by
  intro i s t hwf h
  rcases exec_cases h with ⟨-, rfl⟩ | ⟨-, rfl⟩
  · obtain ⟨hr, hp, hpc, ht, he, hturns⟩ := commandRule_host i s
    obtain ⟨ha, hd⟩ := commandRule_caps i s
    refine ⟨⟨hr, hp, hpc, ht, he, hturns, ha, hd⟩, fun hi => ?_⟩
    have hmem (a : Nat) (hout : a < dataBase ∨ dataBase + s.dataLen.toNat ≤ a) :
        Memory.read (commandRule i s).mem a = Memory.read s.mem a :=
      read_commandRule_outside hi hwf (by omega)
    rw [complete_mem]
    refine ⟨?_, ?_, ?_, ?_, ?_, ?_, ?_, ?_, hmem⟩
    all_goals rw [commandRule_eq_of_ne_clear hi s]; rfl
  · exact ⟨⟨rfl, rfl, rfl, rfl, rfl, rfl, rfl, rfl⟩, fun _ => ⟨rfl, rfl, rfl, rfl, rfl, rfl, rfl, rfl, fun _ _ => rfl⟩⟩

/-- The permutation commands and `ADDBACK` write `W` alone. -/
theorem commandRule_writes_w {i : Instr} (hi : (∃ a b c d, i = .qr a b c d) ∨ i = .colround ∨ i = .diaground ∨
    i = .doubleround ∨ i = .permute ∨ i = .addback) (s : State) :
    commandRule i s = { s with w := (commandRule i s).w } := by
  rcases hi with ⟨a, b, c, d, rfl⟩ | rfl | rfl | rfl | rfl | rfl
  all_goals simp only [commandRule, addBack]

/-- Settles O57: each command is performed, and its rule is one record update. -/
theorem frameOfRegisterCommands : Obligations.FrameOfRegisterCommands := by
  intro i s t hc h
  obtain rfl := eq_complete_of_exec hc h
  refine ⟨?nop, ?w, ?loadstate, ?serialize, ?block, ?polyInit, ?polyAbsorb, ?polyFinal, ?polyMac⟩
  case nop => rintro rfl; rfl
  case w => intro hi; rw [commandRule_writes_w hi s]; exact ⟨rfl, fun _ => rfl⟩
  case loadstate => rintro rfl; exact ⟨rfl, fun _ => rfl⟩
  case serialize => rintro rfl; exact ⟨rfl, fun _ => rfl⟩
  case block => rintro rfl; rw [commandRule, doBlock_eq]; exact ⟨rfl, fun _ => rfl⟩
  case polyInit => rintro rfl; exact ⟨rfl, fun _ => rfl⟩
  case polyAbsorb => rintro ⟨len, rfl⟩; exact ⟨rfl, fun _ => rfl⟩
  case polyFinal => rintro rfl; exact ⟨rfl, fun _ => rfl⟩
  case polyMac => rintro rfl; rw [commandRule, polyMac_eq]; exact ⟨rfl, fun _ => rfl⟩

/-- Settles O58: the bytes by the memory law, the registers by the rule of each command as one record update. -/
theorem frameOfStoringCommands : Obligations.FrameOfStoringCommands := by
  intro i s t hwf hc h hi
  obtain rfl := eq_complete_of_exec hc h
  refine ⟨fun a ha => ?_, ?streamXor, ?aeadEnc, ?aeadDec⟩
  · exact read_commandRule_outside (by rcases hi with rfl | rfl | rfl <;> exact nofun) hwf ha
  case streamXor => rintro rfl; rw [commandRule, streamFrom_eq]; rfl
  case aeadEnc => rintro rfl; rw [commandRule, aeadEncrypt_eq]; rfl
  case aeadDec => rintro rfl; rw [commandRule, aeadDecrypt_eq]; split <;> rfl

/-! ### The sequencer (O59) -/

theorem writeReg_seq (s : State) (v : Word) (r : Reg) : (writeReg s v r).seq = s.seq := by
  cases r with
  | status => rw [writeReg, writeStatus_eq]
  | cmd => rw [writeReg]; rcases accept_cases v s with h | h <;> rw [h] <;> rfl
  | _ => rfl

theorem hostStep_seq {s t : State} (h : hostStep s = .next t) : t.seq = s.seq := by
  rcases hostStep_cases h with ⟨_, _, _, _, rfl⟩ | ⟨_, _, rfl, _, _, _, _, rfl⟩ | ⟨_, _, _, _, _, _, _, _, _, _, rfl⟩
  · rfl
  · rfl
  · exact writeReg_seq _ _ _

/-- The engine's turn changes `SEQ` only by performing `AEAD_ENC`, `AEAD_DEC` or `CLEAR` (R30). -/
theorem engineStep_seq_cases {s t : State} (h : engineStep s = .next t) (hne : t.seq ≠ s.seq) :
    (s.pending = some (encode .aeadEnc) ∧ t.seq = .encrypt) ∨
    (s.pending = some (encode .aeadDec) ∧ (t.seq = .decrypt ∨ t.seq = .rejected)) ∨
    (s.pending = some (encode .clear) ∧ t.seq = .idle) := by
  rcases engineStep_cases h with ⟨_, rfl⟩ | ⟨_, _, _, _, rfl⟩ | ⟨_, _, _, _, _, rfl⟩ | ⟨cmd, i, hp, hd, _, rfl⟩
  · exact absurd rfl hne
  · exact absurd rfl hne
  · exact absurd rfl hne
  · rw [hp, ← encodeOfDecodeGivesWord cmd i hd]
    rcases commandRule_verdict_cases i s with ⟨hseq, -⟩ | ⟨rfl, hseq, -⟩ | ⟨rfl, hseq, -⟩ | ⟨rfl, hseq, -⟩ |
      ⟨rfl, hseq, -⟩
    · exact absurd hseq hne
    · exact .inl ⟨rfl, hseq⟩
    · exact .inr (.inl ⟨rfl, .inl hseq⟩)
    · exact .inr (.inl ⟨rfl, .inr hseq⟩)
    · exact .inr (.inr ⟨rfl, hseq⟩)

/-- Settles O59, by cases on the agent that moves. -/
theorem sequencerWrittenOnlyAtCompletion : Obligations.SequencerWrittenOnlyAtCompletion := by
  intro turn s t h hne
  rcases takeTurn_cases h with ⟨rfl, hh⟩ | ⟨rfl, he⟩ | ⟨draw, rfl, rfl⟩
  · exact absurd (hostStep_seq hh) hne
  · exact .inr ⟨rfl, engineStep_seq_cases he hne⟩
  · exact .inl ⟨⟨draw, rfl⟩, rfl⟩

end Sys2Proof.Machine
end

section
/-!
PROOFS. The machine's invariant (10_state.md sections 3 to 7): the state after reset meets it and every step of every
agent keeps it.
-/

namespace Sys2Proof.Machine

/-! ### The lengths that were checked -/

theorem dataFits_of_storesData {i : Instr} {s : State} (hi : storesData i) (h : lengthsFit i s = true) :
    s.dataLen.toNat ≤ s.dataCap.val := by
  rcases hi with rfl | rfl | rfl
  · exact of_decide_eq_true h
  · exact of_decide_eq_true (Bool.and_eq_true_iff.1 h).2
  · exact of_decide_eq_true (Bool.and_eq_true_iff.1 h).2

/-! ### Clamping (R98) -/

/-- Splitting a bitwise and at bit 32. -/
theorem and_split_word (x m y n : Nat) (hx : x < 2 ^ 32) (hm : m < 2 ^ 32) :
    (x + 2 ^ 32 * y) &&& (m + 2 ^ 32 * n) = (x &&& m) + 2 ^ 32 * (y &&& n) := by
  have hxm : x &&& m < 2 ^ 32 := Nat.and_lt_two_pow x hm
  apply Nat.eq_of_testBit_eq
  intro j
  rw [Nat.add_comm x, Nat.add_comm m, Nat.add_comm (x &&& m), Nat.testBit_and, Nat.testBit_two_pow_mul_add y hx,
    Nat.testBit_two_pow_mul_add n hm, Nat.testBit_two_pow_mul_add (y &&& n) hxm]
  split
  · rw [Nat.testBit_and]
  · rw [Nat.testBit_and]

/-- Masking a register file word by word masks its integer. -/
theorem intOf_zipWith_and : ∀ {as bs : List Word}, as.length = bs.length →
    intOf (List.zipWith (· &&& ·) as bs) = intOf as &&& intOf bs
  | [], [], _ => rfl
  | a :: as, b :: bs, h => by
    rw [List.zipWith_cons_cons, intOf, intOf, intOf, intOf_zipWith_and (by simpa using h), BitVec.toNat_and,
      and_split_word _ _ _ _ a.isLt b.isLt]

/-- The four word masks are `CLAMP` (R19, R98). -/
theorem intOf_clampWords (pkey : Vector Word 8) :
    intOf (clampWords pkey).toList = intOf [pkey[0], pkey[1], pkey[2], pkey[3]] &&& clampMask :=
  intOf_zipWith_and (as := [pkey[0], pkey[1], pkey[2], pkey[3]])
    (bs := [0x0fffffff, 0x0ffffffc, 0x0ffffffc, 0x0ffffffc]) rfl

theorem clampWords_clamped (pkey : Vector Word 8) :
    intOf (clampWords pkey).toList &&& clampMask = intOf (clampWords pkey).toList := by
  rw [intOf_clampWords, Nat.and_assoc, Nat.and_self]

/-- The cleared `R` is clamped. -/
theorem intOf_zero_clamped :
    intOf (#v[0, 0, 0, 0] : Vector Word 4).toList &&& clampMask = intOf (#v[0, 0, 0, 0] : Vector Word 4).toList := by
  decide

/-! ### The invariant after a command -/

/-- The four bytes of an aligned word of a buffer all lie in the buffer, since the capacities are multiples of 4. -/
theorem inBuffer_word {s : State} {off : Nat} (h4 : off % 4 = 0)
    (h : (0x1000 ≤ off ∧ off < 0x1000 + s.aadCap.val) ∨ (0x2000 ≤ off ∧ off < 0x2000 + s.dataCap.val)) {k : Nat}
    (hk : k < 4) : inBuffer s.aadCap.val s.dataCap.val (off + k) = true := by
  have ha := s.aadCap.property
  have hd := s.dataCap.property
  rw [inBuffer_iff]
  omega

theorem streamFrom_memOk {s : State} (h : s.memOk) (hd : s.dataLen.toNat ≤ s.dataCap.val) (ctr : Word) :
    Memory.wf (streamFrom ctr s.dataLen.toNat s).mem ∧
      Memory.within (inBuffer s.aadCap.val s.dataCap.val) (streamFrom ctr s.dataLen.toNat s).mem := by
  obtain ⟨hwf, hin⟩ := h
  refine ⟨streamFrom_wf ctr _ hwf, streamFrom_within ctr _ hin fun k hk => ?_⟩
  rw [inBuffer_iff]
  exact .inr ⟨Nat.le_add_right _ _, Nat.add_lt_add_left (hk.trans_le hd) _⟩

theorem commandRule_memOk {i : Instr} {s : State} (h : s.memOk) (hfit : lengthsFit i s = true) :
    (commandRule i s).memOk := by
  obtain ⟨ha, hd⟩ := commandRule_caps i s
  rw [State.memOk, ha, hd]
  rcases commandRule_mem_cases i s with hm | ⟨hi, ctr, hm⟩ | ⟨-, hm⟩
  · rw [hm]; exact h
  · rw [hm]; exact streamFrom_memOk h (dataFits_of_storesData hi hfit) ctr
  · rw [hm]; exact ⟨by simp [Memory.wf], by simp⟩

theorem aeadAcc_lt (key : Vector Word 8) (nonce : Vector Word 3) (data : List Byte) :
    aeadAcc key nonce data < polyP :=
  macOver_lt polyP_pos data

theorem commandRule_polyOk (i : Instr) {s : State} (h : s.polyOk) : (commandRule i s).polyOk := by
  obtain ⟨hacc, hR⟩ := h
  cases i with
  | polyInit => exact ⟨polyP_pos, clampWords_clamped _⟩
  | polyAbsorb len => exact ⟨absorb_lt _ _ _, hR⟩
  | polyMac => exact ⟨macOver_lt polyP_pos _, clampWords_clamped _⟩
  | colround | diaground | doubleround | permute => rw [commandRule]; exact ⟨hacc, hR⟩
  | block => rw [commandRule, doBlock_eq]; exact ⟨hacc, hR⟩
  | streamXor => rw [commandRule, streamFrom_eq]; exact ⟨hacc, hR⟩
  | aeadEnc => rw [commandRule, aeadEncrypt_eq]; exact ⟨aeadAcc_lt _ _ _, clampWords_clamped _⟩
  | aeadDec =>
    rw [commandRule, aeadDecrypt_eq]
    split
    · exact ⟨aeadAcc_lt _ _ _, clampWords_clamped _⟩
    · exact ⟨polyP_pos, clampWords_clamped _⟩
  | clear => exact ⟨polyP_pos, intOf_zero_clamped⟩
  | _ => exact ⟨hacc, hR⟩

/-- The status a completed command leaves: no error, and the verdict of an `AEAD_DEC` alone. -/
theorem complete_commandRule_statusOk (i : Instr) {s : State} (h : s.statusOk) (he : s.err = false)
    (hok : s.authOk = false) (hfail : s.authFail = false) : (complete (commandRule i s)).statusOk := by
  obtain ⟨hkd, hvf, herr, -⟩ := h
  have hcode : s.errCode = .noError := by simpa [he] using herr
  obtain ⟨he', hc'⟩ := commandRule_no_error i he hcode
  simp only [State.statusOk, complete_seq, complete_err, complete_errCode, complete_done, complete_authOk,
    complete_authFail, complete_acc, complete_tag, he', hc']
  rcases commandRule_verdict_cases i s with ⟨e1, e2, e3⟩ | ⟨-, e1, e2, e3⟩ | ⟨-, e1, e2, e3⟩ |
    ⟨-, e1, e2, e3, e4, e5⟩ | ⟨-, e1, e2, e3⟩
  · simp [e1, e2, e3, hok, hfail, hkd, hvf]
  · simp [e1, e2, e3, hok, hfail]
  · simp [e1, e2, e3, hfail]
  · simp [e1, e2, e3, e4, e5, hok]
  · simp [e1, e2, e3]

theorem pendingOk_of_none {s : State} (h : s.pending = none) : s.pendingOk := by
  intro cmd hp
  exact absurd (h.symm.trans hp) nofun

theorem refuse_inv {s : State} (h : s.Inv) {code : ErrCode} (hne : code ≠ .noError) : (refuse code s).Inv := by
  obtain ⟨hmem, hpoly, ⟨hkd, hvf, -⟩, -⟩ := h
  refine ⟨hmem, hpoly, ⟨hkd, hvf, ?_, ?_, nofun, nofun⟩, pendingOk_of_none rfl⟩
  · exact iff_of_true rfl hne
  · exact fun _ => rfl

theorem complete_commandRule_inv {i : Instr} {s : State} (h : s.Inv) (hc : checkInstr i s = .noError)
    (he : s.err = false) (hok : s.authOk = false) (hfail : s.authFail = false) :
    (complete (commandRule i s)).Inv := by
  obtain ⟨hmem, hpoly, hstatus, -⟩ := h
  obtain ⟨-, hfit, -⟩ := checkInstr_eq_noError.1 hc
  exact ⟨commandRule_memOk hmem hfit, commandRule_polyOk i hpoly,
    complete_commandRule_statusOk i hstatus he hok hfail, pendingOk_of_none rfl⟩

/-! ### The invariant after a register write -/

theorem start_inv {s : State} (h : s.Inv) {cmd : Word} (hc : check cmd s = .noError) : (start cmd s).Inv := by
  obtain ⟨hmem, hpoly, ⟨hkd, hvf, -⟩, -⟩ := h
  refine ⟨hmem, hpoly, ⟨hkd, hvf, ?_, nofun, nofun, nofun⟩, ?_⟩
  · exact iff_of_false nofun (fun hne => hne rfl)
  · rintro _ ⟨⟩
    exact ⟨hc, rfl, rfl, rfl, rfl⟩

theorem accept_inv {s : State} (h : s.Inv) (cmd : Word) : (accept cmd s).Inv := by
  by_cases hc : check cmd s = .noError
  · rw [accept_of_noError hc]; exact start_inv h hc
  · rw [accept_of_error hc]; exact refuse_inv h hc

theorem writeWord_memOk {s : State} (h : s.memOk) {off : Nat} (v : Word)
    (hin : ∀ k, k < 4 → inBuffer s.aadCap.val s.dataCap.val (off + k) = true) :
    State.memOk { s with mem := Memory.writeWord s.mem off v } := by
  obtain ⟨hwf, hwithin⟩ := h
  exact ⟨Memory.writeBytes_wf hwf off, Memory.writeBytes_within hwithin (by simpa using hin)⟩

/-- A register write of the idle window keeps the invariant; a buffer word must lie in its buffer. -/
theorem writeReg_inv {s : State} (h : s.Inv) (hb : s.busy = false) (v : Word) (r : Reg)
    (hbuf : ∀ off, r = .buffer off → ∀ k, k < 4 → inBuffer s.aadCap.val s.dataCap.val (off + k) = true) :
    (writeReg s v r).Inv := by
  have hpending := pending_of_idle hb
  cases r with
  | status => rw [writeReg, writeStatus_eq]; exact h
  | cmd => exact accept_inv h v
  | buffer off =>
    obtain ⟨hmem, hpoly, hstatus, -⟩ := h
    exact ⟨writeWord_memOk hmem v (hbuf off rfl), hpoly, hstatus, pendingOk_of_none hpending⟩
  | _ =>
    obtain ⟨hmem, hpoly, hstatus, -⟩ := h
    exact ⟨hmem, hpoly, hstatus, pendingOk_of_none hpending⟩

/-- An offset that names a buffer word names its own, inside a buffer. -/
theorem of_regAt_eq_buffer {a d off x : Nat} (h4 : off % 4 = 0) : regAt a d off = .buffer x →
    x = off ∧ ((0x1000 ≤ off ∧ off < 0x1000 + a) ∨ (0x2000 ≤ off ∧ off < 0x2000 + d)) := by
  apply regAt_cases (fun r => r = .buffer x →
    x = off ∧ ((0x1000 ≤ off ∧ off < 0x1000 + a) ∨ (0x2000 ≤ off ∧ off < 0x2000 + d))) a d off h4
  case hbuf => exact fun hin hr => ⟨(Reg.buffer.inj hr).symm, hin⟩
  all_goals exact fun _ => nofun

/-! ### The invariant after a step (O22, O25) -/

/-- The host's own registers are no part of the invariant. -/
theorem inv_of_hostOnly {s t : State} (h : HostOnly s t) (hs : s.Inv) : t.Inv := by
  obtain ⟨r, p, te, e, rfl⟩ := h
  exact hs

theorem hostStep_inv {s t : State} (hs : s.Inv) (h : hostStep s = .next t) : t.Inv := by
  rcases hostStep_cases h with ht | ⟨-, _, rfl, ht⟩ | ⟨hb, off, v, -, -, h4, ht⟩
  · exact inv_of_hostOnly ht hs
  · exact inv_of_hostOnly ht hs
  · refine inv_of_hostOnly ht (writeReg_inv hs hb v _ fun x hr k hk => ?_)
    obtain ⟨rfl, hin⟩ := of_regAt_eq_buffer h4 hr
    exact inBuffer_word h4 hin hk

theorem engineStep_inv {s t : State} (hs : s.Inv) (h : engineStep s = .next t) : t.Inv := by
  rcases engineStep_cases h with ⟨-, rfl⟩ | ⟨cmd, e, -, -, rfl⟩ | ⟨cmd, i, -, -, hc, rfl⟩ | ⟨cmd, i, hp, -, hc, rfl⟩
  · exact hs
  · exact refuse_inv hs (by cases e <;> decide)
  · exact refuse_inv hs hc
  · obtain ⟨-, -, -, hpending⟩ := id hs
    obtain ⟨-, -, he, hok, hfail⟩ := hpending cmd hp
    exact complete_commandRule_inv hs hc he hok hfail

theorem resetEvent_inv (draw : List Host.Cell) (s : State) : (resetEvent draw s).Inv := by
  refine ⟨drawnMemory_wf_within s.aadCap.val s.dataCap.val draw, ⟨polyP_pos, intOf_zero_clamped⟩, ?_,
    pendingOk_of_none rfl⟩
  exact ⟨nofun, nofun, iff_of_false nofun fun hne => hne rfl, nofun, nofun, nofun⟩

/-- Settles O22: the state right after reset is the one a reset leaves that draws no byte. -/
theorem resetMeetsMachineInvariant : Obligations.ResetMeetsMachineInvariant :=
  resetEvent_inv [] State.reset

/-- Settles O25, by cases on the agent that moves; the order of turns is no part of the invariant. -/
theorem stepKeepsMachineInvariant : Obligations.StepKeepsMachineInvariant := by
  intro s t hs h
  obtain ⟨ts, s', rfl, -, ⟨-, hh⟩ | ⟨-, he⟩ | ⟨draw, -, rfl⟩⟩ := step_cases h
  · exact hostStep_inv (s := { s with turns := ts }) hs hh
  · exact engineStep_inv (s := { s with turns := ts }) hs he
  · exact resetEvent_inv draw _

end Sys2Proof.Machine
end

section
/-!
PROOFS. The registers an offset names in idle transactions (10_state.md section 2), the byte lanes of a buffer word
(20_memory.md section 1), reads that change nothing, and what a host reads after a reset (70_reset_and_hazards.md).
-/

namespace Sys2Proof.Machine

/-! ### Idle transactions at a named place -/

theorem transact_write_at {s : State} (hb : s.busy = false) {off : Nat} {r : Reg} (hw : off < 0x3000)
    (h4 : off % 4 = 0) (hr : regAt s.aadCap.val s.dataCap.val off = r) (v : Word) :
    transact (.write off 4 v) s = .next { writeReg s v r with response := .ok } := by
  rw [transact_write_idle hb hw h4, hr]

theorem transact_read_at {s : State} (hb : s.busy = false) {off : Nat} {r : Reg} (hw : off < 0x3000)
    (h4 : off % 4 = 0) (hr : regAt s.aadCap.val s.dataCap.val off = r) :
    transact (.read off 4) s = .next { s with response := .value (readReg s r) } := by
  rw [transact_read_idle hb hw h4, hr]

theorem buffer_in_window {s : State} {off : Nat}
    (h : (0x1000 ≤ off ∧ off < 0x1000 + s.aadCap.val) ∨ (0x2000 ≤ off ∧ off < 0x2000 + s.dataCap.val)) :
    off < 0x3000 := by
  have ha := s.aadCap.property
  have hd := s.dataCap.property
  omega

/-! ### Stored words are read back (O13) -/

/-- A register that an idle write stores its word into (R32, R48). -/
def storesWord : Reg → Bool
  | .key _ | .nonce _ | .counter | .w _ | .init _ | .pkey _ | .chunk _ | .tagIn _ | .aadLen | .dataLen
  | .buffer _ => true
  | .id | .status | .cmd | .ks _ | .polyR _ | .polyS _ | .acc _ | .tag _ | .caps | .reserved => false

/-- A word that is stored is read back, and storing it makes no command pending. -/
theorem readReg_writeReg {r : Reg} (hr : storesWord r = true) {s : State} (hwf : Memory.wf s.mem) (v : Word)
    (a : Response) : readReg { writeReg s v r with response := a } r = v ∧
      ({ writeReg s v r with response := a } : State).busy = s.busy := by
  cases r with
  | counter | aadLen | dataLen => exact ⟨rfl, rfl⟩
  | buffer off => exact ⟨readWord_writeWord hwf off v, rfl⟩
  | key i | nonce i | w i | init i | pkey i | chunk i | tagIn i => exact ⟨Vector.getElem_set_self i.isLt, rfl⟩
  | _ => cases hr

theorem storesWord_regAt {s : State} {off : Nat} (h4 : off % 4 = 0) (h : hostWritable s off) :
    storesWord (regAt s.aadCap.val s.dataCap.val off) = true := by
  unfold hostWritable at h
  apply regAt_cases (fun r => storesWord r = true) _ _ off h4
  case hkey | hnonce | hctr | hw | hi | hpk | hch | hti | hal | hdl | hbuf => intros; rfl
  all_goals intros; omega

theorem hostWritable_in_window {s : State} {off : Nat} (h : hostWritable s off) : off < 0x3000 := by
  have ha := s.aadCap.property
  have hd := s.dataCap.property
  unfold hostWritable at h
  omega

theorem transact_read_after_write {s : State} (hb : s.busy = false) (hwf : Memory.wf s.mem) {off : Nat}
    (h4 : off % 4 = 0) (h : hostWritable s off) (v : Word) :
    ∃ t, transact (.write off 4 v) s = .next t ∧ transact (.read off 4) t = .next { t with response := .value v } := by
  have hw := hostWritable_in_window h
  refine ⟨_, transact_write_at hb hw h4 rfl v, ?_⟩
  obtain ⟨hread, hbusy⟩ := readReg_writeReg (storesWord_regAt h4 h) hwf v .ok
  obtain ⟨ha, hd⟩ := writeReg_caps s v (regAt s.aadCap.val s.dataCap.val off)
  rw [transact_read_at (hbusy.trans hb) hw h4 (by rw [ha, hd]), hread]

/-- Settles O13: each offset names its register, and a stored word is read back. -/
theorem storedWordIsReadBack : Obligations.StoredWordIsReadBack := by
  intro s v hb
  have write {off : Nat} {r : Reg} (hw : off < 0x3000) (h4 : off % 4 = 0)
      (hr : regAt s.aadCap.val s.dataCap.val off = r) := transact_write_at hb hw h4 hr v
  refine ⟨fun i => write ?_ ?_ (regAt_key _ _ i), fun i => write ?_ ?_ (regAt_nonce _ _ i),
    write ?_ ?_ rfl, fun i => write ?_ ?_ (regAt_w _ _ i), fun i => write ?_ ?_ (regAt_init _ _ i),
    fun i => write ?_ ?_ (regAt_pkey _ _ i), fun i => write ?_ ?_ (regAt_chunk _ _ i),
    fun i => write ?_ ?_ (regAt_tagIn _ _ i), write ?_ ?_ rfl, write ?_ ?_ rfl,
    fun off h4 hin => write (buffer_in_window hin) h4 (regAt_buffer h4 hin),
    fun off hwf h4 h => transact_read_after_write hb hwf h4 h v⟩
  all_goals omega

/-! ### Byte lanes (O15) -/

/-- Settles O15: the buffer's word is written and read lane by lane. -/
theorem bufferWordsAreLittleEndian : Obligations.BufferWordsAreLittleEndian := by
  intro s off v hb hwf h4 hin
  have hw := buffer_in_window hin
  have hr := regAt_buffer h4 hin
  refine ⟨⟨_, transact_write_at hb hw h4 hr v, rfl, fun k hk => ?_, fun a ha => ?_⟩,
    _, transact_read_at hb hw h4 hr, fun k hk => readWord_lane s.mem off k hk⟩
  · show Memory.read (Memory.writeWord s.mem off v) (off + k) = _
    rw [read_writeWord hwf, if_pos (by omega), Nat.add_sub_cancel_left]
  · show Memory.read (Memory.writeWord s.mem off v) a = _
    rw [read_writeWord hwf, if_neg (by omega)]

/-! ### Idle reads (O18) -/

theorem wordOf_succ (v i : Nat) : wordOf v (i + 1) = wordOf (v / 2 ^ 32) i := by
  rw [wordOf, wordOf, Nat.mul_add, Nat.add_comm, Nat.shiftRight_add,
    Nat.shiftRight_eq_div_pow v]

/-- The first `n` words of an integer spell it modulo their width. -/
theorem intOf_words (n : Nat) : ∀ v, intOf ((List.range n).map (wordOf v)) = v % 2 ^ (32 * n) := by
  induction n with
  | zero => intro v; rw [Nat.mul_zero, pow_zero, Nat.mod_one]; rfl
  | succ n ih =>
    intro v
    have htail : ((List.range n).map Nat.succ).map (wordOf v) = (List.range n).map (wordOf (v / 2 ^ 32)) := by
      rw [List.map_map]
      exact List.map_congr_left fun i _ => wordOf_succ v i
    rw [List.range_succ_eq_map, List.map_cons, htail, intOf, ih, toNat_wordOf, Nat.mul_zero, pow_zero, Nat.div_one,
      Nat.mul_add, Nat.add_comm (32 * n), pow_add, Nat.mod_mul]

/-- The five words of a reduced accumulator are its integer, and the last one has two bits. -/
theorem acc_words {s : State} (h : s.acc < 2 ^ 130 - 5) :
    intOf ((List.finRange 5).map fun i => readReg s (.acc i)) = s.acc ∧
      (readReg s (.acc 4)).extractLsb' 2 30 = 0 := by
  constructor
  · have hwords : (List.finRange 5).map (fun i => readReg s (.acc i)) = (List.range 5).map (wordOf s.acc) := rfl
    rw [hwords, intOf_words, Nat.mod_eq_of_lt (by omega)]
  · apply BitVec.eq_of_toNat_eq
    show ((wordOf s.acc 4).extractLsb' 2 30).toNat = 0
    rw [BitVec.extractLsb'_toNat, toNat_wordOf, Nat.shiftRight_eq_div_pow]
    omega

/-- Settles O18: the words of `ACC` by arithmetic, the reads by the register each offset names. -/
theorem accumulatorReadsExactly : Obligations.AccumulatorReadsExactly := by
  refine ⟨fun s h => acc_words h, fun s hb => ?_⟩
  have read {off : Nat} {r : Reg} (hw : off < 0x3000) (h4 : off % 4 = 0)
      (hr : regAt s.aadCap.val s.dataCap.val off = r) := transact_read_at hb hw h4 hr
  have hacc (i : Fin 5) : readReg s (.acc i) = BitVec.ofNat 32 (s.acc / 2 ^ (32 * i.val)) := by
    rw [readReg, wordOf, Nat.shiftRight_eq_div_pow]
  refine ⟨read ?_ ?_ rfl, fun i => read ?_ ?_ (regAt_key _ _ i), fun i => read ?_ ?_ (regAt_nonce _ _ i),
    read ?_ ?_ rfl, fun i => read ?_ ?_ (regAt_w _ _ i), fun i => read ?_ ?_ (regAt_init _ _ i),
    fun i => read ?_ ?_ (regAt_ks _ _ i), fun i => read ?_ ?_ (regAt_pkey _ _ i),
    fun i => read ?_ ?_ (regAt_polyR _ _ i), fun i => read ?_ ?_ (regAt_polyS _ _ i),
    fun i => hacc i ▸ read ?_ ?_ (regAt_acc _ _ i), fun i => read ?_ ?_ (regAt_chunk _ _ i),
    fun i => read ?_ ?_ (regAt_tag _ _ i), fun i => read ?_ ?_ (regAt_tagIn _ _ i), read ?_ ?_ rfl, read ?_ ?_ rfl⟩
  all_goals omega

/-! ### Reads have no side effect (O16) -/

/-- No register reads the host's record of its latest answer. -/
theorem readWindow_response (s : State) (a : Response) (off : Nat) :
    readWindow { s with response := a } off = readWindow s off := by
  have hreg (r : Reg) : readReg { s with response := a } r = readReg s r := by cases r <;> rfl
  cases hb : s.busy
  · rw [readWindow_idle hb, readWindow_idle (s := { s with response := a }) hb, hreg]
  · rw [readWindow_busy hb, readWindow_busy (s := { s with response := a }) hb]; rfl

theorem busRead_busRead (off n : Nat) (s : State) : busRead off n (busRead off n s) = busRead off n s := by
  simp only [busRead, readWindow_response]

/-- Settles O16: a read records its answer, which depends on nothing the record changes. -/
theorem readsHaveNoSideEffect : Obligations.ReadsHaveNoSideEffect := by
  intro s t off n h
  by_cases hw : off < windowSize
  · obtain rfl := next_inj ((transact_read hw s).symm.trans h)
    rw [transact_read hw, busRead_busRead]
    exact ⟨rfl, rfl⟩
  · rw [transact, if_neg hw] at h
    cases h

/-! ### After a reset (O20, O21) -/

/-- One cell of a draw stored in its buffer; a cell outside both buffers is dropped. -/
def drawCell (aadCap dataCap : Nat) (m : Memory) (c : Host.Cell) : Memory :=
  if inBuffer aadCap dataCap c.1 then Memory.write m c.1 c.2 else m

theorem drawnMemory_eq_foldl (aadCap dataCap : Nat) (cells : List Host.Cell) :
    drawnMemory aadCap dataCap cells = cells.foldl (drawCell aadCap dataCap) [] := rfl

theorem drawCell_wf {m : Memory} (h : Memory.wf m) (aadCap dataCap : Nat) (c : Host.Cell) :
    Memory.wf (drawCell aadCap dataCap m c) := by
  unfold drawCell
  split
  · exact Memory.write_wf h c.1 c.2
  · exact h

theorem read_drawCell {m : Memory} (h : Memory.wf m) (aadCap dataCap : Nat) (c : Host.Cell) (x : Nat) :
    Memory.read (drawCell aadCap dataCap m c) x =
      if x = c.1 ∧ inBuffer aadCap dataCap x = true then c.2 else Memory.read m x := by
  unfold drawCell
  split
  · rw [Memory.read_write h]
    by_cases hx : x = c.1
    · rw [if_pos hx, if_pos ⟨hx, hx ▸ ‹_›⟩]
    · rw [if_neg hx, if_neg fun hand => hx hand.1]
  · rw [if_neg]
    rintro ⟨rfl, hin⟩
    contradiction

/-- The draw that gives every listed address the byte of a function. -/
def drawOf (f : Nat → Byte) (addrs : List Nat) : List Host.Cell := addrs.map fun a => (a, f a)

/-- A listed address of a buffer is drawn with its byte, whatever was drawn before. -/
theorem read_foldl_drawOf (aadCap dataCap : Nat) (f : Nat → Byte) (addrs : List Nat) : ∀ {m : Memory},
    Memory.wf m → ∀ x, Memory.read ((drawOf f addrs).foldl (drawCell aadCap dataCap) m) x =
      if x ∈ addrs ∧ inBuffer aadCap dataCap x = true then f x else Memory.read m x := by
  induction addrs with
  | nil => intro m _ x; rw [if_neg (by simp)]; rfl
  | cons a addrs ih =>
    intro m hwf x
    have hrest := ih (drawCell_wf hwf aadCap dataCap (a, f a)) x
    rw [read_drawCell hwf] at hrest
    refine hrest.trans ?_
    by_cases hin : inBuffer aadCap dataCap x = true
    · by_cases hx : x = a
      · subst hx
        rw [if_pos (And.intro (rfl : x = x) hin), ite_self, if_pos ⟨List.mem_cons_self .., hin⟩]
      · simp [hx, hin]
    · simp [hin]

theorem read_drawnMemory_drawOf (aadCap dataCap : Nat) (f : Nat → Byte) (addrs : List Nat) {x : Nat} (hx : x ∈ addrs)
    (hin : inBuffer aadCap dataCap x = true) :
    Memory.read (drawnMemory aadCap dataCap (drawOf f addrs)) x = f x := by
  rw [drawnMemory_eq_foldl, read_foldl_drawOf aadCap dataCap f addrs (m := []) reset_mem_wf, if_pos ⟨hx, hin⟩]

theorem read_resetEvent_drawOf (f : Nat → Byte) (s : State) {n x : Nat} (hx : x < n)
    (hin : inBuffer s.aadCap.val s.dataCap.val x = true) :
    Memory.read (resetEvent (drawOf f (List.range n)) s).mem x = f x :=
  read_drawnMemory_drawOf s.aadCap.val s.dataCap.val f _ (List.mem_range.2 hx) hin

/-- Settles O20, with the draw that lists every offset of the window. -/
theorem everyBufferContentIsDrawn : Obligations.EveryBufferContentIsDrawn := by
  intro s f
  have ha := s.aadCap.property
  have hd := s.dataCap.property
  refine ⟨drawOf f (List.range windowSize), resetEvent (drawOf f (List.range windowSize)) s, rfl, fun k hk => ?_,
    fun k hk => ?_⟩
  · exact read_resetEvent_drawOf f s (n := windowSize) (by unfold windowSize; omega) ((inBuffer_iff _ _ _).2 (by omega))
  · exact read_resetEvent_drawOf f s (n := windowSize) (by unfold windowSize; omega) ((inBuffer_iff _ _ _).2 (by omega))

/-- Settles O21: nothing is pending after a reset, `STATUS` is 0 and the capacities are kept. -/
theorem firstReadsAfterReset : Obligations.FirstReadsAfterReset := by
  intro s t draw h
  obtain rfl : t = resetEvent draw s := next_inj h
  have hb : (resetEvent draw s).busy = false := rfl
  refine ⟨hb, transact_read_at hb (by decide) rfl rfl, ?_, transact_read_at hb (by decide) rfl rfl⟩
  rw [transact_read_status, statusWord_resetEvent]

end Sys2Proof.Machine
end

section
/-!
PROOFS. The host's lines, the step and its stops (30_encoding.md section 3, 20_memory.md section 3, 60_exceptions.md),
and which of several failing checks is reported (60_exceptions.md R122).
-/

namespace Sys2Proof.Machine

/-! ### The first failing check (O8) -/

theorem checkInstr_badLength {i : Instr} {s : State} (hwf : WellFormed i = true) (h : lengthsFit i s = false) :
    checkInstr i s = .badLength := by
  rw [checkInstr, if_neg (by rw [hwf]; exact nofun), if_pos h]

theorem check_encode (i : Instr) (s : State) : check (encode i) s = checkInstr i s :=
  check_of_decode_ok (decodeOfEncodeGivesCommand i) s

/-- Settles O8: the bus decides first, the word's bits before its operands, the lengths before the counter. -/
theorem firstFailingCheckIsReported : Obligations.FirstFailingCheckIsReported := by
  refine ⟨fun s => ?_, fun s cmd h => check_illegalOpcode h s,
    fun s => check_of_decode_error (e := .reservedBits) rfl s, fun s ha _ => ?_, fun s hd _ => ?_⟩
  · obtain ⟨-, hwrite⟩ := inadmissibleAccessIsBusError s 0x009 4 0x21 (by decide) (.inr (by decide))
    exact hwrite
  · rw [check_encode, checkInstr_badLength rfl (lengthsFit_aeadEnc_eq_false.2 (.inl ha))]
  · rw [check_encode, checkInstr_badLength (i := .streamXor) rfl (dataFits_eq_false.2 hd)]

/-! ### The engine's turn (O23) -/

theorem engineStep_of_decode {s : State} {cmd : Word} {i : Instr} (hp : s.pending = some cmd)
    (hd : decode cmd = .ok i) : engineStep s = exec i s := by
  simp only [engineStep, hp, hd]

/-- Settles O23, by whether a turn is listed. -/
theorem engineStepPerformsPending : Obligations.EngineStepPerformsPending := by
  intro s cmd i hp hd
  refine ⟨fun ts hts => ?_, fun hts => ?_⟩
  · rw [step_eq, nextTurn_cons hts]
    exact engineStep_of_decode hp hd
  · have hbusy : s.busy = true := by rw [State.busy, hp]; rfl
    rw [step_eq, nextTurn_nil hts, hbusy]
    exact engineStep_of_decode hp hd

/-! ### The lines of a host program (O24) -/

theorem afterTransact_of_next {op : BusOp} {s u : State} (h : transact op s = .next u) (k : State → State) :
    afterTransact op k s = .next (k u) := by
  rw [afterTransact, h]

/-- An answer differs from the stated one exactly when its word does. -/
theorem value_bne_value (x v : Word) : (Response.value x != Response.value v) = decide (x ≠ v) := by
  by_cases h : x = v <;> simp [h]

theorem runLine_expect {s : State} {off : Nat} (hw : off < 0x3000) (h4 : off % 4 = 0) (v : HostVal) :
    runLine (.expect off v) s = .next { s with
      response := .value (readWindow s off),
      expectFailed := s.expectFailed || decide (readWindow s off ≠ hostValue s v), hostPc := s.hostPc + 1 } := by
  rw [runLine, afterTransact_of_next (transact_read_word hw h4 s), judgeResponse, nextLine, value_bne_value]

theorem runLine_bnz (s : State) (t : Nat) (mask : Word) (l : Nat) : runLine (.bnz t mask l) s = .next { s with
    hostPc := if tempValue s.temps t &&& mask = 0 then s.hostPc + 1 else labelLine s.program l } := by
  rw [runLine, nextLine]
  split <;> rfl

/-- Settles O24, line by line: a transaction that the window answers, then what the line does with the answer. -/
theorem hostLinesAreTransactions : Obligations.HostLinesAreTransactions := by
  intro s off t l v mask hw h4
  refine ⟨?_, ?_, ?_, ?_, ?_, runLine_expect hw h4 (.num v), runLine_expect hw h4 (.temp t), runLine_bnz s t mask l,
    rfl⟩
  · rw [runLine, afterTransact_of_next (transact_write hw _ s), hostValue]
  · rw [runLine, afterTransact_of_next (transact_write hw _ s), hostValue]
  · rw [runLine, afterTransact_of_next (transact_read_word hw h4 s), storeResponse, nextLine]
  · rw [tempValue_setTemp, if_pos rfl]
  · intro t' ht
    rw [tempValue_setTemp, if_neg ht]

/-! ### What stops the machine (O26) -/

/-- The window offset of a transaction. -/
def BusOp.offset : BusOp → Nat
  | .read off _ => off
  | .write off _ _ => off

/-- A line's transaction is answered, or it lies outside the window and stops the machine. -/
theorem afterTransact_outcome (op : BusOp) (k : State → State) (s : State) :
    (∃ t, afterTransact op k s = .next t) ∨
      (windowSize ≤ op.offset ∧ afterTransact op k s = .fault (.outsideWindow op.offset)) := by
  by_cases hw : op.offset < windowSize
  · cases op with
    | read off n => exact .inl ⟨_, afterTransact_of_next (transact_read hw s) k⟩
    | write off n v => exact .inl ⟨_, afterTransact_of_next (transact_write hw v s) k⟩
  · refine .inr ⟨not_lt.1 hw, ?_⟩
    cases op with
    | read off n =>
      have hw : ¬ off < windowSize := hw
      rw [afterTransact, transact, if_neg hw]; rfl
    | write off n v =>
      have hw : ¬ off < windowSize := hw
      rw [afterTransact, transact, if_neg hw]; rfl

/-- An outcome of the machine in a state: a next state, or the fault of a host line outside the window. -/
def nextOrOutside (s : State) (o : Host.Outcome State Fault Refusal) : Prop :=
  (∃ t, o = .next t) ∨ (hostInWindow s = false ∧ ∃ off, 0x3000 ≤ off ∧ o = .fault (.outsideWindow off))

theorem afterTransact_nextOrOutside {op : BusOp} {s : State} (hwin : hostInWindow s = decide (op.offset < windowSize))
    (k : State → State) : nextOrOutside s (afterTransact op k s) := by
  rw [nextOrOutside, hwin]
  exact (afterTransact_outcome op k s).imp_right fun ⟨hout, hf⟩ => ⟨decide_eq_false (not_lt.2 hout), _, hout, hf⟩

/-- A turn of the host, line by line. -/
theorem hostStep_nextOrOutside (s : State) : nextOrOutside s (hostStep s) := by
  cases hl : hostLine s with
  | none => exact .inl ⟨s, by rw [hostStep, hl]⟩
  | some line =>
    have hrun : hostStep s = runLine line s := by rw [hostStep, hl]
    rw [hrun]
    cases line with
    | access op => exact afterTransact_nextOrOutside (by rw [hostInWindow, hl]; cases op <;> rfl) nextLine
    | wr off v =>
      exact afterTransact_nextOrOutside (op := .write off 4 (hostValue s v)) (by rw [hostInWindow, hl]; rfl) nextLine
    | rd off t => exact afterTransact_nextOrOutside (op := .read off 4) (by rw [hostInWindow, hl]; rfl) _
    | expect off v => exact afterTransact_nextOrOutside (op := .read off 4) (by rw [hostInWindow, hl]; rfl) _
    | bnz t mask l => exact .inl ⟨_, runLine_bnz s t mask l⟩
    | label l => exact .inl ⟨_, rfl⟩

/-- Every command answers a next state in every state. -/
theorem exists_exec_next (i : Instr) (s : State) : ∃ t, exec i s = .next t := by
  rw [exec_eq]
  split
  · exact ⟨_, rfl⟩
  · exact ⟨_, rfl⟩

theorem exists_engineStep_next (s : State) : ∃ t, engineStep s = .next t := by
  cases hp : s.pending with
  | none => exact ⟨s, engineStep_of_not_pending hp⟩
  | some cmd =>
    cases hd : decode cmd with
    | ok i => rw [engineStep_of_decode hp hd]; exact exists_exec_next i s
    | error e => exact ⟨refuse (rejectCode e) s, by simp only [engineStep, hp, hd]⟩

/-- A step, agent by agent: only the host can leave the window. -/
theorem step_nextOrOutside (s : State) : nextOrOutside s (step s) := by
  obtain ⟨ts, hts⟩ := nextTurn_cases s
  rw [step_eq, hts]
  cases (nextTurn s).1 with
  | host => exact hostStep_nextOrOutside { s with turns := ts }
  | engine => exact .inl (exists_engineStep_next _)
  | reset draw => exact .inl ⟨_, rfl⟩

/-- Settles O26, by the outcomes of a step. -/
theorem stepStopsOnlyOutsideWindow : Obligations.StepStopsOnlyOutsideWindow := by
  intro s
  rcases step_nextOrOutside s with ⟨t, ht⟩ | ⟨hwin, off, hoff, hf⟩
  · rw [ht]
    exact ⟨fun _ => ⟨t, rfl⟩, fun r => nofun, fun r => nofun⟩
  · rw [hf, hwin]
    refine ⟨nofun, fun r => nofun, fun r hr => ?_⟩
    cases hr
    exact ⟨off, rfl, hoff⟩

end Sys2Proof.Machine
end

section
/-!
PROOFS. The permutation engine (40_permutation.md section 2): the rounds as quarter rounds that do not meet, and the
permutation as the commands it is made of.
-/

namespace Sys2Proof.Machine

/-! ### Four slots of the working state -/

/-- The words of four slots, in the order `quarterWords` answers them. -/
def slots4 (w : Vector Word 16) (a b c d : Slot) : Word × Word × Word × Word :=
  (getSlot w a, getSlot w b, getSlot w c, getSlot w d)

/-- A quarter round of four distinct slots is the closed form on their words. -/
theorem slots4_quarterRound {a b c d : Slot} (h : [a, b, c, d].Nodup) (w : Vector Word 16) :
    slots4 (quarterRound a b c d w) a b c d =
      quarterWords (getSlot w a) (getSlot w b) (getSlot w c) (getSlot w d) := by
  obtain ⟨⟨hab, hac, had⟩, ⟨hbc, hbd⟩, hcd⟩ : (a ≠ b ∧ a ≠ c ∧ a ≠ d) ∧ (b ≠ c ∧ b ≠ d) ∧ c ≠ d := by
    simpa [List.nodup_cons] using h
  exact quarterRound_distinct a b c d w hab hac had hbc hbd hcd

theorem getSlot_quarterRound_of_notMem {a b c d i : Slot} (h : i ∉ [a, b, c, d]) (w : Vector Word 16) :
    getSlot (quarterRound a b c d w) i = getSlot w i := by
  obtain ⟨ha, hb, hc, hd⟩ : i ≠ a ∧ i ≠ b ∧ i ≠ c ∧ i ≠ d := by simpa using h
  exact quarterRound_other a b c d i w ha.symm hb.symm hc.symm hd.symm

/-- A quarter round leaves alone any four slots that are none of its own. -/
theorem slots4_quarterRound_disjoint {a b c d a' b' c' d' : Slot} (h : ∀ i ∈ [a, b, c, d], i ∉ [a', b', c', d'])
    (w : Vector Word 16) : slots4 (quarterRound a' b' c' d' w) a b c d = slots4 w a b c d := by
  rw [slots4, getSlot_quarterRound_of_notMem (h a (by simp)), getSlot_quarterRound_of_notMem (h b (by simp)),
    getSlot_quarterRound_of_notMem (h c (by simp)), getSlot_quarterRound_of_notMem (h d (by simp)), slots4]

/-! ### The rounds (O31, O32) -/

/-- Each column takes the quarter round of its own words: the three other quarter rounds do not meet it. -/
theorem columnRound_slots (w : Vector Word 16) :
    slots4 (columnRound w) 0 4 8 12 = quarterWords w[0] w[4] w[8] w[12] ∧
    slots4 (columnRound w) 1 5 9 13 = quarterWords w[1] w[5] w[9] w[13] ∧
    slots4 (columnRound w) 2 6 10 14 = quarterWords w[2] w[6] w[10] w[14] ∧
    slots4 (columnRound w) 3 7 11 15 = quarterWords w[3] w[7] w[11] w[15] := by
  refine ⟨?_, ?_, ?_, ?_⟩
  all_goals
    simp (disch := decide) only [columnRound, slots4_quarterRound_disjoint, slots4_quarterRound,
      getSlot_quarterRound_of_notMem]
    rfl

/-- Each diagonal takes the quarter round of its own words. -/
theorem diagonalRound_slots (w : Vector Word 16) :
    slots4 (diagonalRound w) 0 5 10 15 = quarterWords w[0] w[5] w[10] w[15] ∧
    slots4 (diagonalRound w) 1 6 11 12 = quarterWords w[1] w[6] w[11] w[12] ∧
    slots4 (diagonalRound w) 2 7 8 13 = quarterWords w[2] w[7] w[8] w[13] ∧
    slots4 (diagonalRound w) 3 4 9 14 = quarterWords w[3] w[4] w[9] w[14] := by
  refine ⟨?_, ?_, ?_, ?_⟩
  all_goals
    simp (disch := decide) only [diagonalRound, slots4_quarterRound_disjoint, slots4_quarterRound,
      getSlot_quarterRound_of_notMem]
    rfl

/-- The state after a command that writes `W` alone. -/
def completeW (w : Vector Word 16) (s : State) : State := complete { s with w := w }

@[simp] theorem completeW_w (w : Vector Word 16) (s : State) : (completeW w s).w = w := rfl

@[simp] theorem completeW_completeW (w w' : Vector Word 16) (s : State) :
    completeW w (completeW w' s) = completeW w s := rfl

theorem exec_qr_eq_completeW (a b c d : Slot) (s : State) :
    exec (.qr a b c d) s = .next (completeW (quarterRound a b c d s.w) s) := rfl

theorem exec_colround (s : State) : exec .colround s = .next (completeW (columnRound s.w) s) := rfl

theorem exec_diaground (s : State) : exec .diaground s = .next (completeW (diagonalRound s.w) s) := rfl

theorem exec_doubleround (s : State) : exec .doubleround s = .next (completeW (doubleRound s.w) s) := rfl

theorem exec_permute (s : State) : exec .permute s = .next (completeW (permutation s.w) s) := rfl

/-- Settles O31, by the words of the columns. -/
theorem columnRoundMixesColumns : Obligations.ColumnRoundMixesColumns := fun s =>
  ⟨_, exec_colround s, rfl, columnRound_slots s.w⟩

/-- Settles O32, by the words of the diagonals. -/
theorem diagonalRoundMixesDiagonals : Obligations.DiagonalRoundMixesDiagonals := fun s =>
  ⟨_, exec_diaground s, rfl, diagonalRound_slots s.w⟩

/-! ### Commands in sequence -/

theorem execSeq_cons {i : Instr} {s t : State} (h : exec i s = .next t) (is : List Instr) :
    execSeq (i :: is) s = execSeq is t := by
  rw [execSeq, h]

theorem execSeq_append {xs : List Instr} : ∀ {s t : State}, execSeq xs s = .next t → ∀ ys,
    execSeq (xs ++ ys) s = execSeq ys t := by
  induction xs with
  | nil => intro s t h ys; rw [List.nil_append, next_inj h]
  | cons i xs ih =>
    intro s t h ys
    obtain ⟨u, hu⟩ := exists_exec_next i s
    rw [execSeq_cons hu] at h
    rw [List.cons_append, execSeq_cons hu, ih h]

/-- Settles O33: `DOUBLEROUND` is the two rounds, and completes as the second does. -/
theorem doubleRoundIsColumnThenDiagonal : Obligations.DoubleRoundIsColumnThenDiagonal := by
  intro s
  refine ⟨_, exec_doubleround s, ?_⟩
  rw [execSeq_cons (exec_colround s), execSeq_cons (exec_diaground _), execSeq, completeW_w, completeW_completeW,
    doubleRound]

/-! ### The permutation (O34) -/

theorem execSeq_doubleRoundQrs (s : State) : execSeq doubleRoundQrs s = .next (completeW (doubleRound s.w) s) := by
  simp only [doubleRoundQrs, List.cons_append, List.nil_append, execSeq, exec_qr_eq_completeW, completeW_w,
    completeW_completeW, doubleRound, columnRound, diagonalRound]

/-- Commands that do one double round, issued again and again, do as many. -/
theorem execSeq_doubleRounds {xs : List Instr} (h : ∀ s, execSeq xs s = .next (completeW (doubleRound s.w) s))
    (n : Nat) : ∀ s, execSeq (List.replicate (n + 1) xs).flatten s =
      .next (completeW (doubleRounds (n + 1) s.w) s) := by
  induction n with
  | zero => intro s; rw [List.replicate_one, List.flatten_singleton, h, doubleRounds, doubleRounds]
  | succ n ih =>
    intro s
    rw [List.replicate_succ, List.flatten_cons, execSeq_append (h s), ih, completeW_w, completeW_completeW,
      doubleRounds_succ (n + 1)]

theorem execSeq_tenDoubleRoundsQrs (s : State) : execSeq tenDoubleRoundsQrs s = exec .permute s := by
  rw [exec_permute, permutation, tenDoubleRoundsQrs]
  exact execSeq_doubleRounds execSeq_doubleRoundQrs 9 s

theorem execSeq_doublerounds (s : State) : execSeq (List.replicate 10 .doubleround) s = exec .permute s := by
  have hone (s : State) : execSeq [.doubleround] s = .next (completeW (doubleRound s.w) s) := by
    rw [execSeq_cons (exec_doubleround s), execSeq]
  rw [exec_permute, permutation]
  exact execSeq_doubleRounds hone 9 s

/-- The working state whose words are all 0. -/
def zeroW : Vector Word 16 := Vector.replicate 16 0

theorem getSlot_zeroW : getSlot zeroW = fun _ => 0 := by
  funext i
  exact Vector.getElem_replicate i.isLt

theorem slotStep_zero (x y z : Slot) (n : Nat) : slotStep x y z n (fun _ => 0) = fun _ => 0 := by
  have hupdate (i : Slot) : Function.update (fun _ : Slot => (0 : Word)) i 0 = fun _ => 0 :=
    Function.update_eq_self i (fun _ => 0)
  have hadd : (0 : Word) + 0 = 0 := rfl
  have hxor : (0 : Word) ^^^ 0 = 0 := rfl
  have hrot : (0 : Word).rotateLeft n = 0 := by simp [BitVec.rotateLeft_def]
  simp only [slotStep, hadd, hupdate, hxor, hrot]

theorem quarterRound_zeroW (a b c d : Slot) : quarterRound a b c d zeroW = zeroW := by
  apply slots_ext
  intro i
  rw [getSlot_quarterRound, getSlot_zeroW]
  simp only [slotStep_zero]

theorem doubleRound_zeroW : doubleRound zeroW = zeroW := by
  simp only [doubleRound, columnRound, diagonalRound, quarterRound_zeroW]

/-- The all-zero state is a fixed point of the permutation (R87). -/
theorem doubleRounds_zeroW (n : Nat) : doubleRounds n zeroW = zeroW := by
  induction n with
  | zero => rfl
  | succ n ih => rw [doubleRounds_succ, doubleRound_zeroW, ih]

theorem permutation_zero {w : Vector Word 16} (h : ∀ i : Fin 16, w[i] = 0) (i : Fin 16) : (permutation w)[i] = 0 := by
  have hw : w = zeroW := by
    apply Vector.ext
    intro j hj
    rw [zeroW, Vector.getElem_replicate]
    exact h ⟨j, hj⟩
  rw [hw, permutation, doubleRounds_zeroW]
  exact Vector.getElem_replicate i.isLt

/-- Settles O34: both sequences end where `PERMUTE` does. -/
theorem permuteIsEightyQuarterRounds : Obligations.PermuteIsEightyQuarterRounds := by
  refine ⟨rfl, fun s => ⟨_, exec_permute s, ?_, ?_, rfl, permutation_zero⟩⟩
  · rw [execSeq_tenDoubleRoundsQrs, exec_permute]
  · rw [execSeq_doublerounds, exec_permute]

end Sys2Proof.Machine
end

section
/-!
PROOFS. Blocks and streams (41_block_serializer.md): the single block commands, the block as a sequence of commands and
as a function of its inputs, and the payload of `STREAM_XOR`, which is its own inverse.
-/

namespace Sys2Proof.Machine

/-! ### `ADDBACK` and `SERIALIZE` (O37, O38) -/

theorem exec_addback (s : State) : exec .addback s = .next (complete (addBack s)) := rfl

theorem exec_serialize (s : State) : exec .serialize s = .next (complete (serializeState s)) := rfl

theorem addWords_getElem (w v : Vector Word 16) (i : Fin 16) : (addWords w v)[i] = w[i] + v[i] :=
  Vector.getElem_zipWith i.isLt

/-- Settles O37: each word is one addition of words, which wraps. -/
theorem addbackAddsEachWord : Obligations.AddbackAddsEachWord := by
  intro s
  refine ⟨_, exec_addback s, rfl, fun i => ?_⟩
  show ((addWords s.w s.init)[i]).toNat = _
  rw [addWords_getElem, BitVec.toNat_add]

/-- Byte `4i + j` of a register file is bits `[8j+7:8j]` of word `i` (R38). -/
theorem wordsLe_toList_getElem? {n : Nat} (v : Vector Word n) (i : Fin n) {j : Nat} (hj : j < 4) :
    (wordsLe v.toList)[4 * i.val + j]? = some ((v[i]).extractLsb' (8 * j) 8) := by
  have hi : i.val < v.toList.length := by simp
  rw [List.getElem?_eq_getElem (by rw [wordsLe_length]; omega), wordsLe_getElem v.toList i.val j hi hj]
  rfl

/-- Settles O38: `KS` takes the words of `W`, whose bytes are little-endian. -/
theorem serializeIsLittleEndian : Obligations.SerializeIsLittleEndian := fun s =>
  ⟨_, exec_serialize s, rfl, fun i _ hj => wordsLe_toList_getElem? s.w i hj⟩

/-! ### `BLOCK` (O39, O40) -/

theorem exec_block (s : State) : exec .block s = .next (complete (doBlock s.counter s)) := rfl

/-- The steps of `BLOCK`, each by its own command (R91, R96). -/
theorem execSeq_block_steps (s : State) : execSeq [.loadstate, .permute, .addback, .serialize] s = exec .block s := by
  rw [execSeq_cons (exec_loadstate s), execSeq_cons (exec_permute _), execSeq_cons (exec_addback _),
    execSeq_cons (exec_serialize _), execSeq, exec_block]
  simp only [doBlock, permuteState, completeW, complete, addBack, serializeState, loadState]

/-- Settles O39: ten double rounds by quarter rounds stand for the one `PERMUTE` of the sequence. -/
theorem blockEqualsItsSteps : Obligations.BlockEqualsItsSteps := by
  intro s
  refine ⟨_, exec_block s, ?_, ?_⟩
  · rw [execSeq_block_steps, exec_block]
  · have hqrs := (execSeq_tenDoubleRoundsQrs (complete (loadState s.counter s))).trans (exec_permute _)
    rw [← exec_block, ← execSeq_block_steps, execSeq_cons (exec_loadstate s), execSeq_cons (exec_permute _),
      List.cons_append, execSeq_cons (exec_loadstate s), execSeq_append hqrs]

/-- Settles O40, by the block as one record update. -/
theorem blockIsFunctionOfKeyCounterNonce : Obligations.BlockIsFunctionOfKeyCounterNonce := by
  intro s
  refine ⟨_, exec_block s, ?_⟩
  rw [doBlock_eq]
  refine ⟨rfl, rfl, rfl, fun i => addWords_getElem _ _ i, fun u hk hn hc => ⟨_, exec_block u, ?_⟩⟩
  rw [doBlock_eq, hk, hn, hc]
  exact ⟨rfl, rfl, rfl⟩

/-! ### `STREAM_XOR` (O41, O42) -/

theorem exec_streamXor {s : State} (hd : s.dataLen.toNat ≤ s.dataCap.val)
    (hc : s.counter.toNat + nblocks s.dataLen.toNat - 1 ≤ 2 ^ 32 - 1) :
    exec .streamXor s = .next (complete (streamFrom s.counter s.dataLen.toNat s)) :=
  exec_of_noError (checkInstr_eq_noError.2 ⟨rfl, decide_eq_true hd, decide_eq_true hc⟩)

theorem read_streamFrom_data (ctr : Word) {n : Nat} {s : State} (h : Memory.wf s.mem) {k : Nat} (hk : k < n) :
    Memory.read (streamFrom ctr n s).mem (dataBase + k) =
      Memory.read s.mem (dataBase + k) ^^^ keystreamByte s.key s.nonce ctr k := by
  rw [read_streamFrom ctr n h, if_pos (by omega), Nat.add_sub_cancel_left]

theorem read_streamFrom_outside (ctr : Word) {n : Nat} {s : State} (h : Memory.wf s.mem) {a : Nat}
    (ha : a < dataBase ∨ dataBase + n ≤ a) : Memory.read (streamFrom ctr n s).mem a = Memory.read s.mem a := by
  rw [read_streamFrom ctr n h, if_neg (by omega)]

/-- Settles O41, by what a payload does to the state and to memory. -/
theorem streamXorAppliesKeystream : Obligations.StreamXorAppliesKeystream := by
  intro s hwf hd hc
  refine ⟨_, exec_streamXor hd hc, ?_⟩
  rw [streamFrom_eq, Nat.add_sub_assoc (one_le_nblocks _)]
  exact ⟨rfl, fun k hk => read_streamFrom_data s.counter hwf hk, fun a ha => read_streamFrom_outside s.counter hwf ha,
    rfl, rfl, rfl⟩

/-- A payload exclusive-ored in twice leaves memory as it was. -/
theorem streamFrom_mem_twice (ctr : Word) (n : Nat) {s u : State} (hwf : Memory.wf s.mem) (hk : u.key = s.key)
    (hn : u.nonce = s.nonce) (hm : u.mem = (streamFrom ctr n s).mem) : (streamFrom ctr n u).mem = s.mem := by
  have hwfu : Memory.wf u.mem := hm ▸ streamFrom_wf ctr n hwf
  refine Memory.ext_of_read (streamFrom_wf ctr n hwfu) hwf fun a => ?_
  rw [read_streamFrom ctr n hwfu, hm, read_streamFrom ctr n hwf, hk, hn]
  split
  · rw [BitVec.xor_assoc, BitVec.xor_self, BitVec.xor_zero]
  · rfl

/-- Settles O42: the first payload keeps everything the second one reads but memory. -/
theorem streamXorTwiceRestoresData : Obligations.StreamXorTwiceRestoresData := by
  intro s hwf hd hc
  have htwice :
      (streamFrom s.counter s.dataLen.toNat (complete (streamFrom s.counter s.dataLen.toNat s))).mem = s.mem :=
    streamFrom_mem_twice _ _ hwf (by rw [streamFrom_eq]; rfl) (by rw [streamFrom_eq]; rfl) rfl
  have hsame : ∃ t, complete (streamFrom s.counter s.dataLen.toNat s) = t ∧ t.dataLen = s.dataLen ∧
      t.counter = s.counter ∧ t.dataCap = s.dataCap := by
    rw [streamFrom_eq]; exact ⟨_, rfl, rfl, rfl, rfl⟩
  obtain ⟨t, ht, htd, htc, htcap⟩ := hsame
  have hsecond : exec .streamXor t = .next (complete (streamFrom s.counter s.dataLen.toNat t)) := by
    rw [exec_streamXor (by rw [htd, htcap]; exact hd) (by rw [htd, htc]; exact hc), htd, htc]
  rw [execSeq_cons (exec_streamXor hd hc), ht, execSeq_cons hsecond, execSeq]
  refine ⟨_, rfl, ht ▸ htwice, ?_, ?_⟩
  · rw [streamFrom_eq]; exact htd
  · rw [streamFrom_eq]; exact htc

end Sys2Proof.Machine
end

section
/-!
PROOFS. The Poly1305 accumulator (42_poly1305.md): clamping byte by byte, the absorption of one chunk in exact integers,
and `POLY_MAC` as the commands it stands for.
-/

namespace Sys2Proof.Machine

/-! ### Parts of a register file -/

theorem wordsLe_append (xs ys : List Word) : wordsLe (xs ++ ys) = wordsLe xs ++ wordsLe ys := List.flatMap_append

/-- The bytes of the first words of a register file. -/
theorem wordsLe_take {ws : List Word} {n : Nat} (h : n ≤ ws.length) :
    (wordsLe ws).take (4 * n) = wordsLe (ws.take n) := by
  have hlen : (wordsLe (ws.take n)).length = 4 * n := by rw [wordsLe_length, List.length_take, min_eq_left h]
  conv_lhs => rw [← List.take_append_drop n ws, wordsLe_append]
  exact List.take_left' hlen

/-- The bytes of the last words of a register file. -/
theorem wordsLe_drop {ws : List Word} {n : Nat} (h : n ≤ ws.length) :
    (wordsLe ws).drop (4 * n) = wordsLe (ws.drop n) := by
  have hlen : (wordsLe (ws.take n)).length = 4 * n := by rw [wordsLe_length, List.length_take, min_eq_left h]
  conv_lhs => rw [← List.take_append_drop n ws, wordsLe_append]
  exact List.drop_left' hlen

theorem toList_take {n m : Nat} (v : Vector Word n) (h : m ≤ n) :
    v.toList.take m = List.ofFn fun i : Fin m => v[i.val] := by
  apply List.ext_getElem
  · simp [h]
  · intro i _ _; simp

theorem toList_drop {n m k : Nat} (v : Vector Word n) (h : m + k = n) :
    v.toList.drop m = List.ofFn fun i : Fin k => v[m + i.val] := by
  apply List.ext_getElem
  · simp; omega
  · intro i _ _; simp

/-! ### `POLY_INIT` (O43) -/

theorem exec_polyInit (s : State) : exec .polyInit s = .next (complete (polyInit s)) := rfl

/-- The four word masks of R103. -/
def clampMasks : Vector Word 4 := #v[0x0fffffff, 0x0ffffffc, 0x0ffffffc, 0x0ffffffc]

theorem clampWords_getElem (pkey : Vector Word 8) (i : Fin 4) :
    (clampWords pkey)[i] = pkey[i.castLE (by decide : 4 ≤ 8)] &&& clampMasks[i] := by
  fin_cases i <;> rfl

/-- The word masks of R103 are the byte masks of R98. -/
theorem clampMasks_bytes : ∀ i j : Fin 4,
    (clampMasks[i]).extractLsb' (8 * j.val) 8 = clampByte (4 * i.val + j.val) := by
  decide

/-- Clamping masks the one-time key byte by byte (R98). -/
theorem clampWords_byte (pkey : Vector Word 8) {k : Nat} (hk : k < 16) :
    (wordsLe (clampWords pkey).toList)[k]? = (wordsLe pkey.toList)[k]?.map fun b => b &&& clampByte k := by
  obtain ⟨i, j, rfl⟩ : ∃ i j : Fin 4, k = 4 * i.val + j.val :=
    ⟨⟨k / 4, by omega⟩, ⟨k % 4, by omega⟩, by simp only; omega⟩
  have hbyte : (wordsLe pkey.toList)[4 * i.val + j.val]? =
      some ((pkey[i.castLE (by decide : 4 ≤ 8)]).extractLsb' (8 * j.val) 8) :=
    wordsLe_toList_getElem? pkey (i.castLE (by decide : 4 ≤ 8)) j.isLt
  rw [wordsLe_toList_getElem? (clampWords pkey) i j.isLt, clampWords_getElem, BitVec.extractLsb'_and,
    clampMasks_bytes i j, hbyte]
  rfl

/-- The integer of the clamped words is the first 16 bytes under `CLAMP` (R19, R98). -/
theorem intOf_clampWords_eq_leInt (pkey : Vector Word 8) :
    intOf (clampWords pkey).toList = leInt ((wordsLe pkey.toList).take 16) &&& clampMask := by
  have hfirst : (wordsLe pkey.toList).take 16 = wordsLe [pkey[0], pkey[1], pkey[2], pkey[3]] := by
    rw [wordsLe_take (n := 4) (by simp), toList_take pkey (by decide)]
    rfl
  rw [hfirst, leInt_wordsLe, intOf_clampWords]

theorem wordsLe_splitS (pkey : Vector Word 8) : wordsLe (splitS pkey).toList = (wordsLe pkey.toList).drop 16 := by
  rw [wordsLe_drop (n := 4) (by simp), toList_drop (k := 4) pkey (by decide)]
  rfl

/-- Settles O43: the masks of bytes, of the integer and of words are three readings of `clampWords`. -/
theorem polyInitClampsAndSplits : Obligations.PolyInitClampsAndSplits := fun s =>
  ⟨_, exec_polyInit s, rfl, fun _ hk => clampWords_byte s.pkey hk, intOf_clampWords_eq_leInt s.pkey, rfl, rfl, rfl, rfl,
    wordsLe_splitS s.pkey⟩

/-! ### `POLY_ABSORB` (O44, O45) -/

theorem checkInstr_polyAbsorb {len : BitVec 5} (h1 : 1 ≤ len.toNat) (h16 : len.toNat ≤ 16) (s : State) :
    checkInstr (.polyAbsorb len) s = .noError := by
  have hwf : WellFormed (.polyAbsorb len) = true := by simp [WellFormed, h1, h16]
  exact checkInstr_eq_noError.2 ⟨hwf, rfl, rfl⟩

theorem exec_polyAbsorb {len : BitVec 5} (h1 : 1 ≤ len.toNat) (h16 : len.toNat ≤ 16) (s : State) :
    exec (.polyAbsorb len) s = .next (complete (absorbChunk (chunkBytes len s) s)) :=
  exec_of_noError (checkInstr_polyAbsorb h1 h16 s)

theorem chunkBytes_length {len : BitVec 5} (h16 : len.toNat ≤ 16) (s : State) :
    (chunkBytes len s).length = len.toNat := by
  rw [chunkBytes, List.length_take, wordsLe_length, Vector.length_toList, min_eq_left h16]

/-- The pad bit stands above every byte of the chunk, so that setting it adds it (R99). -/
theorem leInt_or_pad (m : List Byte) : leInt m ||| 2 ^ (8 * m.length) = leInt m + 2 ^ (8 * m.length) := by
  have h := Nat.two_pow_add_eq_or_of_lt (leInt_lt m) 1
  rw [Nat.mul_one] at h
  rw [Nat.lor_comm, ← h, Nat.add_comm]

/-- Settles O44, by the definition of `absorb` at a chunk of `LEN` bytes. -/
theorem absorbAddsMultipliesReduces : Obligations.AbsorbAddsMultipliesReduces := by
  intro s len h1 h16
  show (chunkBytes len s).length = len.toNat ∧ leInt (chunkBytes len s) ||| _ = _ ∧ _
  have hlen := chunkBytes_length h16 s
  have hpad := leInt_or_pad (chunkBytes len s)
  rw [hlen] at hpad
  refine ⟨hlen, hpad, _, exec_polyAbsorb h1 h16 s, rfl, ?_, absorb_lt _ _ _⟩
  show absorb (intOf s.polyR.toList) s.acc (chunkBytes len s) = _
  rw [absorb, hlen]
  rfl

/-- Settles O45: the two states give `absorb` the same bytes, and pass or fail the same check. -/
theorem absorbIgnoresBytesBeyondLength : Obligations.AbsorbIgnoresBytesBeyondLength := by
  intro s u t t' len hs hbytes ht ht'
  obtain ⟨c, rfl⟩ : ∃ c, s = { u with chunk := c } := ⟨_, hs⟩
  have hchunk : chunkBytes len { u with chunk := c } = chunkBytes len u := by
    apply List.ext_getElem?
    intro k
    by_cases hk : k < len.toNat
    · rw [chunkBytes, chunkBytes, List.getElem?_take_of_lt hk, List.getElem?_take_of_lt hk]
      exact hbytes k hk
    · rw [chunkBytes, chunkBytes, List.getElem?_take_eq_none (not_lt.1 hk), List.getElem?_take_eq_none (not_lt.1 hk)]
  by_cases hc : checkInstr (.polyAbsorb len) u = .noError
  · rw [eq_complete_of_exec hc ht', eq_complete_of_exec (s := { u with chunk := c }) hc ht, commandRule, commandRule,
      hchunk]
    rfl
  · rcases exec_cases ht with ⟨h, -⟩ | ⟨-, rfl⟩
    · exact absurd h hc
    · rcases exec_cases ht' with ⟨h, -⟩ | ⟨-, rfl⟩
      · exact absurd h hc
      · rfl

/-! ### `POLY_MAC` (O47, O48) -/

theorem exec_polyMac {s : State} (h : s.dataLen.toNat ≤ s.dataCap.val) :
    exec .polyMac s = .next (complete (finalize (absorbMessage (dataBytes s) (polyInit s)))) :=
  exec_of_noError (checkInstr_eq_noError.2 ⟨rfl, decide_eq_true h, rfl⟩)

/-- `MACOVER` is a fold over the chunks of the message (R100). -/
theorem macOver_eq_foldl (r acc : Nat) (m : List Byte) : macOver r acc m = (chunksOf m).foldl (absorb r) acc := by
  rw [macOver, chunksOf, List.foldl_map]

/-- Every chunk of a message holds 1 to 16 bytes. -/
theorem length_of_mem_chunksOf {m c : List Byte} (h : c ∈ chunksOf m) : 1 ≤ c.length ∧ c.length ≤ 16 := by
  obtain ⟨q, hq, rfl⟩ := List.mem_map.1 h
  have hq := List.mem_range.1 hq
  rw [chunkOf, List.length_take, List.length_drop]
  omega

/-- A word read from a byte string is four of its bytes. -/
theorem leBytes_le32 {bs : List Byte} {k : Nat} (h : k + 4 ≤ bs.length) :
    leBytes 4 (le32 bs k).toNat = (bs.drop k).take 4 := by
  have hlen : ((bs.drop k).take 4).length = 4 := by rw [List.length_take, List.length_drop]; omega
  have hlt := leInt_lt ((bs.drop k).take 4)
  rw [hlen] at hlt
  apply leInt_inj (by rw [leBytes_length, hlen])
  rw [leInt_leBytes, le32, BitVec.toNat_ofNat, Nat.mod_mod, Nat.mod_eq_of_lt hlt]

/-- `CHUNK` holds the bytes the host writes to it. -/
theorem take_wordsLe_chunkWords {c : List Byte} (h : c.length ≤ 16) :
    (wordsLe (chunkWords c).toList).take c.length = c := by
  have hlen : 16 ≤ (c ++ zeros 16).length := by simp
  have hbytes : wordsLe (chunkWords c).toList = (c ++ zeros 16).take 16 := by
    show leBytes 4 _ ++ (leBytes 4 _ ++ (leBytes 4 _ ++ (leBytes 4 _ ++ []))) = _
    rw [leBytes_le32 (by omega), leBytes_le32 (by omega), leBytes_le32 (by omega), leBytes_le32 (by omega),
      List.append_nil, show (16 : Nat) = 4 + (4 + (4 + 4)) from rfl, List.take_add, List.take_add, List.take_add]
    simp only [List.drop_drop, List.drop_zero]
  rw [hbytes, List.take_take, min_eq_left h, List.take_left]

theorem exec_polyAbsorb_chunkWords {c : List Byte} (h1 : 1 ≤ c.length) (h16 : c.length ≤ 16) (s : State) :
    exec (.polyAbsorb (BitVec.ofNat 5 c.length)) { s with chunk := chunkWords c } =
      .next (complete { s with chunk := chunkWords c, acc := absorb (intOf s.polyR.toList) s.acc c }) := by
  have hlen : (BitVec.ofNat 5 c.length).toNat = c.length := by rw [BitVec.toNat_ofNat, Nat.mod_eq_of_lt (by omega)]
  rw [exec_polyAbsorb (hlen.symm ▸ h1) (hlen.symm ▸ h16), chunkBytes, hlen, take_wordsLe_chunkWords h16]
  rfl

/-- The chunks of a message given one by one end in the fold over them, under the same `R` and `S`. -/
theorem absorbChunks_foldl {cs : List (List Byte)} : ∀ (s : State), (∀ c ∈ cs, 1 ≤ c.length ∧ c.length ≤ 16) →
    ∃ t, absorbChunks cs s = .next t ∧ t.polyR = s.polyR ∧ t.polyS = s.polyS ∧
      t.acc = cs.foldl (absorb (intOf s.polyR.toList)) s.acc := by
  induction cs with
  | nil => exact fun s _ => ⟨s, rfl, rfl, rfl, rfl⟩
  | cons c cs ih =>
    intro s h
    obtain ⟨h1, h16⟩ := h c (List.mem_cons_self ..)
    obtain ⟨t, ht, hr, hs, hacc⟩ := ih (complete { s with
      chunk := chunkWords c, acc := absorb (intOf s.polyR.toList) s.acc c }) fun d hd => h d (List.mem_cons_of_mem c hd)
    refine ⟨t, ?_, hr, hs, hacc⟩
    rw [absorbChunks, exec_polyAbsorb_chunkWords h1 h16]
    exact ht

/-- Settles O47, by the fold both sides compute. -/
theorem macEqualsChunkByChunk : Obligations.MacEqualsChunkByChunk := by
  intro s hd
  obtain ⟨t1, ht1, hr, hs, hacc⟩ := absorbChunks_foldl (complete (polyInit s)) fun c hc =>
    length_of_mem_chunksOf (m := dataBytes s) hc
  have hacc : t1.acc = macOver (intOf (clampWords s.pkey).toList) 0 (dataBytes s) :=
    hacc.trans (macOver_eq_foldl _ _ _).symm
  refine ⟨_, _, t1, _, exec_polyMac hd, exec_polyInit s, ht1, exec_polyFinal t1, ?_⟩
  rw [polyMac_eq]
  refine ⟨hr.symm, hs.symm, hacc.symm, ?_⟩
  show tagWords _ (splitS s.pkey) = tagWords t1.acc t1.polyS
  rw [hacc, hs]
  rfl

/-- The tag of a zero accumulator is `S`. -/
theorem tagWords_zero (polyS : Vector Word 4) : tagWords 0 polyS = polyS := by
  have hlt : intOf polyS.toList < 2 ^ 128 := (intOf_lt polyS.toList).trans_eq (by rw [Vector.length_toList])
  apply Vector.toList_inj.1
  apply intOf_inj (by simp)
  rw [intOf_tagWords, Nat.zero_add, Nat.mod_eq_of_lt hlt]

/-- Settles O48, by the rule of `POLY_MAC` as one record update. -/
theorem macOfDataAndOfNothing : Obligations.MacOfDataAndOfNothing := by
  intro s hd
  refine ⟨_, exec_polyMac hd, ?_⟩
  rw [polyMac_eq]
  refine ⟨rfl, macOver_eq_foldl _ _ _, intOf_tagWords _ _, fun h0 => ?_⟩
  have hempty : dataBytes s = [] := by rw [dataBytes, h0]; rfl
  rw [hempty, macOver_nil]
  exact ⟨rfl, tagWords_zero _⟩

end Sys2Proof.Machine
end

section
/-!
PROOFS. The AEAD commands (43_aead.md): the one-time key, the authenticated data byte by byte, encryption before the
tag, no byte of plaintext before the verdict, and decryption as the inverse of encryption.
-/

namespace Sys2Proof.Machine

/-! ### The one-time key (O49) -/

theorem exec_aeadEnc {s : State} (ha : s.aadLen.toNat ≤ s.aadCap.val) (hd : s.dataLen.toNat ≤ s.dataCap.val) :
    exec .aeadEnc s = .next (complete (aeadEncrypt s)) := by
  have hfit : lengthsFit .aeadEnc s = true := by simp [lengthsFit, aadFits, dataFits, ha, hd]
  exact exec_of_noError (checkInstr_eq_noError.2 ⟨rfl, hfit, rfl⟩)

theorem toList_first_eight (b : Vector Word 16) :
    (#v[b[0], b[1], b[2], b[3], b[4], b[5], b[6], b[7]]).toList = b.toList.take 8 := by
  rw [toList_take b (by decide)]
  rfl

/-- The one-time key is the first 32 bytes of the counter-0 block (R108). -/
theorem wordsLe_oneTimeKey (key : Vector Word 8) (nonce : Vector Word 3) :
    wordsLe (oneTimeKey key nonce).toList = (wordsLe (blockWords key nonce 0).toList).take 32 := by
  have hfirst : (oneTimeKey key nonce).toList = (blockWords key nonce 0).toList.take 8 :=
    toList_first_eight (blockWords key nonce 0)
  have htake : (wordsLe (blockWords key nonce 0).toList).take (4 * 8) = _ := wordsLe_take (n := 8) (by simp)
  rw [hfirst, ← htake]

/-- Both AEAD rules leave the one-time key, clamped and split, and keep `COUNTER`. -/
theorem aead_keys {i : Instr} (hi : i = .aeadEnc ∨ i = .aeadDec) (s : State) :
    (commandRule i s).pkey = oneTimeKey s.key s.nonce ∧
      (commandRule i s).polyR = clampWords (oneTimeKey s.key s.nonce) ∧
      (commandRule i s).polyS = splitS (oneTimeKey s.key s.nonce) ∧ (commandRule i s).counter = s.counter := by
  rcases hi with rfl | rfl
  · rw [commandRule, aeadEncrypt_eq]; exact ⟨rfl, rfl, rfl, rfl⟩
  · rw [commandRule, aeadDecrypt_eq]; split <;> exact ⟨rfl, rfl, rfl, rfl⟩

theorem payload_mem_counter (c : Word) (s : State) : (payload { s with counter := c }).mem = (payload s).mem :=
  payload_mem_congr rfl rfl rfl rfl

/-- Neither AEAD rule reads `COUNTER`. -/
theorem aead_counter {i : Instr} (hi : i = .aeadEnc ∨ i = .aeadDec) (c : Word) (s : State) :
    commandRule i { s with counter := c } = { commandRule i s with counter := c } := by
  rcases hi with rfl | rfl
  · rw [commandRule, commandRule, aeadEncrypt_eq, aeadEncrypt_eq, payload_mem_counter]
    rfl
  · have hmac : macData { s with counter := c } = macData s := rfl
    rw [commandRule, commandRule, aeadDecrypt_eq, aeadDecrypt_eq, payload_mem_counter, hmac]
    by_cases h : aeadTag s.key s.nonce (macData s) = s.tagIn
    · rw [if_pos h, if_pos h]
    · rw [if_neg h, if_neg h]

/-- Settles O49, by what both rules do to the key registers. -/
theorem oneTimeKeyIsFromBlockZero : Obligations.OneTimeKeyIsFromBlockZero := by
  intro i s hi ha hd
  have hexec (c : Word) : exec i { s with counter := c } =
      .next (complete (commandRule i { s with counter := c })) := by
    rcases hi with rfl | rfl
    · exact exec_aeadEnc ha hd
    · exact exec_aeadDec ha hd
  obtain ⟨hkey, hr, hs, hc⟩ := aead_keys hi s
  refine ⟨_, hexec s.counter, ?_, ?_, ?_, hc, fun c => ⟨_, hexec c, ?_⟩⟩
  · exact (congrArg (fun k => wordsLe k.toList) hkey).trans (wordsLe_oneTimeKey _ _)
  · exact hr.trans (congrArg clampWords hkey.symm)
  · exact hs.trans (congrArg splitS hkey.symm)
  · rw [aead_counter hi]
    rfl

/-! ### The authenticated data (R109) -/

theorem add_pad16 (n : Nat) : n + pad16 n = 16 * ((n + 15) / 16) := by unfold pad16; omega

/-- A byte of a joined string, when every byte of its first part is known. -/
theorem getElem?_append_of_bytes {xs : List Byte} {n : Nat} {f : Nat → Byte} (hlen : xs.length = n)
    (hf : ∀ k, k < n → xs[k]? = some (f k)) (ys : List Byte) (k : Nat) :
    (xs ++ ys)[k]? = if k < n then some (f k) else ys[k - n]? := by
  rw [List.getElem?_append, hlen]
  split
  · exact hf k ‹_›
  · rfl

theorem readBytes_getElem? (m : Memory) (a n k : Nat) (hk : k < n) :
    (Memory.readBytes m a n)[k]? = some (Memory.read m (a + k)) := by
  rw [List.getElem?_eq_getElem (by simpa using hk), Memory.readBytes_getElem]

theorem zeros_getElem? (n k : Nat) (hk : k < n) : (zeros n)[k]? = some 0 := List.getElem?_replicate_of_lt hk

theorem leBytes_getElem? (n v k : Nat) (hk : k < n) : (leBytes n v)[k]? = some (BitVec.ofNat 8 (v / 256 ^ k)) := by
  rw [List.getElem?_eq_getElem (by simpa using hk), leBytes_getElem, Nat.shiftRight_eq_div_pow, pow_mul]
  rfl

theorem macData_length_eq (s : State) : (macData s).length =
    16 * ((s.aadLen.toNat + 15) / 16) + 16 * ((s.dataLen.toNat + 15) / 16) + 16 := by
  simp only [macData, aadBytes, dataBytes, List.length_append, Memory.readBytes_length, zeros_length, leBytes_length,
    ← add_pad16]
  omega

/-- `MACDATA` byte by byte, part after part. -/
theorem macData_getElem? (s : State) {k : Nat} (hk : k < (macData s).length) :
    (macData s)[k]? = some (macDataByte s k) := by
  rw [macData_length_eq, ← add_pad16, ← add_pad16] at hk
  simp only [macDataByte, ← add_pad16]
  simp only [macData, aadBytes, dataBytes, List.append_assoc]
  generalize s.aadLen.toNat = a at *
  generalize s.dataLen.toNat = d at *
  rw [getElem?_append_of_bytes (by simp) (readBytes_getElem? s.mem aadBase a),
    getElem?_append_of_bytes (by simp) (zeros_getElem? (pad16 a)),
    getElem?_append_of_bytes (by simp) (readBytes_getElem? s.mem dataBase d),
    getElem?_append_of_bytes (by simp) (zeros_getElem? (pad16 d)),
    getElem?_append_of_bytes (by simp) (leBytes_getElem? 8 a)]
  by_cases haad : k < a
  · rw [if_pos haad, if_pos haad]
  rw [if_neg haad, if_neg haad]
  by_cases hpadA : k < a + pad16 a
  · rw [if_pos hpadA, if_pos (by omega)]
  rw [if_neg hpadA, if_neg (by omega)]
  by_cases hdata : k < a + pad16 a + d
  · rw [if_pos hdata, if_pos (by omega), Nat.sub_sub]
  rw [if_neg hdata, if_neg (by omega)]
  by_cases hpadD : k < a + pad16 a + (d + pad16 d)
  · rw [if_pos hpadD, if_pos (by omega)]
  rw [if_neg hpadD, if_neg (by omega)]
  have hk' : k - a - pad16 a - d - pad16 d = k - (a + pad16 a + (d + pad16 d)) := by omega
  rw [hk']
  by_cases hlenA : k < a + pad16 a + (d + pad16 d) + 8
  · rw [if_pos hlenA, if_pos (by omega)]
  rw [if_neg hlenA, if_neg (by omega), leBytes_getElem? 8 d _ (by omega), Nat.sub_sub]

/-! ### Encryption (O50) -/

/-- Settles O50: the data byte by byte, and the rule of `AEAD_ENC` as one record update. -/
theorem encryptThenTag : Obligations.EncryptThenTag := by
  refine ⟨fun s => ⟨macData_length_eq s, fun k hk => macData_getElem? s hk⟩, fun s hwf ha hd => ?_⟩
  refine ⟨_, exec_aeadEnc ha hd, ?_⟩
  rw [aeadEncrypt_eq]
  exact ⟨rfl, fun k hk => read_payload_data hwf hk, fun a hout => read_payload_outside hwf hout, rfl, rfl,
    macOver_eq_foldl _ _ _, intOf_tagWords _ _, rfl, rfl, rfl⟩

/-! ### Decryption (O53, O54) -/

/-- Settles O53: a rejection keeps memory, and a pending command hides every register but two. -/
theorem noPlaintextBeforeVerification : Obligations.NoPlaintextBeforeVerification := by
  refine ⟨fun s t a h hne => ?_, fun s t off hp h0 h4 hw hal h => ?_⟩
  · rcases exec_cases h with ⟨-, rfl⟩ | ⟨-, rfl⟩
    · rw [commandRule, aeadDecrypt_eq] at hne ⊢
      by_cases hmatch : aeadTag s.key s.nonce (macData s) = s.tagIn
      · rw [if_pos hmatch]
        exact ⟨hmatch, rfl⟩
      · rw [if_neg hmatch] at hne
        exact absurd rfl hne
    · exact absurd rfl hne
  · have hbusy : s.busy = true := by rw [State.busy, hp]; rfl
    rw [transact_read_word hw hal, readWindow_busy hbusy, if_neg h0, if_neg h4] at h
    rw [next_inj h]

/-- Settles O54: `AEAD_DEC` finds the tag `AEAD_ENC` left, and its payload undoes the first one. -/
theorem decryptUndoesEncrypt : Obligations.DecryptUndoesEncrypt := by
  intro s hwf ha hd
  obtain ⟨t, ht, hkey, hnonce, ha', hd', htag, hdata, hmem⟩ : ∃ t, exec .aeadEnc s = .next t ∧ t.key = s.key ∧
      t.nonce = s.nonce ∧ t.aadLen.toNat ≤ t.aadCap.val ∧ t.dataLen.toNat ≤ t.dataCap.val ∧
      aeadTag t.key t.nonce (macData t) = t.tag ∧ t.dataLen = s.dataLen ∧ t.mem = (payload s).mem := by
    refine ⟨_, exec_aeadEnc ha hd, ?_⟩
    rw [aeadEncrypt_eq]
    exact ⟨rfl, rfl, ha, hd, rfl, rfl, rfl⟩
  have hverdict : aeadTag t.key t.nonce (macData { t with tagIn := t.tag }) = t.tag := htag
  refine ⟨t, _, ht, exec_aeadDec (s := { t with tagIn := t.tag }) ha' hd', ?_⟩
  rw [aeadDecrypt_eq, if_pos hverdict]
  refine ⟨rfl, rfl, rfl, ?_⟩
  show (streamFrom 1 t.dataLen.toNat { t with tagIn := t.tag }).mem = s.mem
  rw [hdata]
  exact streamFrom_mem_twice 1 _ hwf hkey hnonce hmem

end Sys2Proof.Machine
end

section
/-!
PROOFS. `CLEAR`, which erases everything (44_system.md), and the buffer bytes at and beyond the lengths, which no
command reads (10_state.md section 6, 20_memory.md section 2).
-/

namespace Sys2Proof.Machine

/-! ### `CLEAR` (O35) -/

theorem exec_clear (s : State) : exec .clear s = .next (complete (clearAll s)) := rfl

theorem statusWord_clear (s : State) : statusWord (complete (clearAll s)) = 0x00000002 := by
  have hsame : statusWord (complete (clearAll s)) = statusWord { State.reset with done := true } := rfl
  rw [hsame]
  decide

/-- Settles O35: single registers are 0 by definition, register files are zeros, read word by word. -/
theorem clearErasesEverything : Obligations.ClearErasesEverything := by
  intro s
  refine ⟨_, exec_clear s, statusWord_clear s, ?key, ?nonce, rfl, ?w, ?init, ?ks, ?pkey, ?polyR, ?polyS, rfl, ?chunk,
    ?tag, ?tagIn, rfl, rfl, rfl, rfl, fun _ => rfl⟩
  all_goals exact word_eq_zero_of_eq_replicate rfl

/-! ### Bytes beyond the lengths (O60) -/

/-- No check reads a byte of memory. -/
theorem checkInstr_mem (i : Instr) (m : Memory) (s : State) : checkInstr i { s with mem := m } = checkInstr i s := by
  cases i <;> rfl

/-- The registers a rule leaves depend on memory only through the data and the authenticated data, before and after a
payload. -/
theorem commandRule_registers_congr (i : Instr) {m : Memory} {u : State}
    (hdata : dataBytes { u with mem := m } = dataBytes u) (hmac : macData { u with mem := m } = macData u)
    (hpay : macData { u with mem := (payload { u with mem := m }).mem } = macData { u with mem := (payload u).mem }) :
    commandRule i { u with mem := m } = { commandRule i u with mem := (commandRule i { u with mem := m }).mem } := by
  cases i with
  | colround | diaground | doubleround | permute => rw [commandRule, commandRule]
  | block => rw [commandRule, commandRule, doBlock_eq, doBlock_eq]
  | streamXor => rw [commandRule, commandRule, streamFrom_eq, streamFrom_eq u.counter _ u]
  | polyMac => rw [commandRule, commandRule, polyMac_eq, polyMac_eq, hdata]
  | aeadEnc => rw [commandRule, commandRule, aeadEncrypt_eq, aeadEncrypt_eq, hpay]
  | aeadDec =>
    rw [commandRule, commandRule, aeadDecrypt_eq, aeadDecrypt_eq, hmac]
    by_cases h : aeadTag u.key u.nonce (macData u) = u.tagIn
    · rw [if_pos h, if_pos h]
    · rw [if_neg h, if_neg h]
  | _ => rfl

/-- A byte that two memories share is still shared after a payload. -/
theorem read_payload_congr {m : Memory} {u : State} (hm : Memory.wf m) (hu : Memory.wf u.mem) {a : Nat}
    (h : Memory.read m a = Memory.read u.mem a) :
    Memory.read (payload { u with mem := m }).mem a = Memory.read (payload u).mem a := by
  rw [read_payload hu, read_payload (s := { u with mem := m }) hm, h]

/-- A byte that two memories share is still shared after a rule, when the verdicts agree. -/
theorem read_commandRule_congr (i : Instr) {m : Memory} {u : State} (hm : Memory.wf m) (hu : Memory.wf u.mem)
    (hmac : macData { u with mem := m } = macData u) {a : Nat} (h : Memory.read m a = Memory.read u.mem a) :
    Memory.read (commandRule i { u with mem := m }).mem a = Memory.read (commandRule i u).mem a := by
  cases i with
  | colround | diaground | doubleround | permute => rw [commandRule, commandRule]; exact h
  | block => rw [commandRule, commandRule, doBlock_eq, doBlock_eq]; exact h
  | streamXor =>
    rw [commandRule, commandRule, read_streamFrom _ _ hu, read_streamFrom (s := { u with mem := m }) _ _ hm, h]
  | aeadEnc =>
    rw [commandRule, commandRule, aeadEncrypt_eq, aeadEncrypt_eq]
    exact read_payload_congr hm hu h
  | aeadDec =>
    rw [commandRule, commandRule, aeadDecrypt_eq, aeadDecrypt_eq, hmac]
    by_cases hv : aeadTag u.key u.nonce (macData u) = u.tagIn
    · rw [if_pos hv, if_pos hv]; exact read_payload_congr hm hu h
    · rw [if_neg hv, if_neg hv]; exact h
  | clear => rfl
  | _ => exact h

/-- A rule never makes a length longer: all but `CLEAR` keep both. -/
theorem commandRule_lengths_le (i : Instr) (s : State) : (commandRule i s).aadLen.toNat ≤ s.aadLen.toNat ∧
    (commandRule i s).dataLen.toNat ≤ s.dataLen.toNat := by
  by_cases hi : i = .clear
  · subst hi; exact ⟨Nat.zero_le _, Nat.zero_le _⟩
  · rw [commandRule_eq_of_ne_clear hi s]; exact ⟨le_refl _, le_refl _⟩

/-- Settles O60: the two states pass or fail the same checks, and a rule takes shared bytes to shared bytes. -/
theorem bytesBeyondLengthsDoNotMatter : Obligations.BytesBeyondLengthsDoNotMatter := by
  intro i s u t t' hs hu hsame ht ht'
  obtain ⟨hregs, haad, hdata⟩ := hsame
  obtain ⟨m, rfl⟩ : ∃ m, s = { u with mem := m } := ⟨_, hregs⟩
  have hmac : macData { u with mem := m } = macData u := macData_congr rfl rfl haad hdata
  by_cases hc : checkInstr i u = .noError
  · have hc' : checkInstr i { u with mem := m } = .noError := (checkInstr_mem i m u).trans hc
    obtain rfl := eq_complete_of_exec hc' ht
    obtain rfl := eq_complete_of_exec hc ht'
    have hpay : macData { u with mem := (payload { u with mem := m }).mem } =
        macData { u with mem := (payload u).mem } :=
      macData_congr rfl rfl (fun k hk => read_payload_congr hs hu (haad k hk))
        fun k hk => read_payload_congr hs hu (hdata k hk)
    obtain ⟨ha, hd⟩ := commandRule_lengths_le i { u with mem := m }
    exact ⟨congrArg complete (commandRule_registers_congr i (Memory.readBytes_congr hdata) hmac hpay),
      fun k hk => read_commandRule_congr i hs hu hmac (haad k (Nat.lt_of_lt_of_le hk ha)),
      fun k hk => read_commandRule_congr i hs hu hmac (hdata k (Nat.lt_of_lt_of_le hk hd))⟩
  · rcases exec_cases ht with ⟨h, -⟩ | ⟨-, rfl⟩
    · exact absurd ((checkInstr_mem i m u).symm.trans h) hc
    · rcases exec_cases ht' with ⟨h, -⟩ | ⟨-, rfl⟩
      · exact absurd h hc
      · rw [checkInstr_mem]
        exact ⟨rfl, haad, hdata⟩

end Sys2Proof.Machine
end
